-- ==== Sys2Proof/Word.lean ====
section
/-! DEFINITION. The bit-vector widths and index types of the block (spec/00_scope.md R7, R9, R10, R12). -/

namespace Sys2Proof

/-- A byte: a general register, a timer, a memory byte, the immediate NN (R7, R10). -/
abbrev Byte := BitVec 8

/-- A 16-bit word: an instruction word, `I`, `PC`, a stack entry (R7). -/
abbrev Word := BitVec 16

/-- A 12-bit address as an instruction word holds it: the field NNN (R12). -/
abbrev Addr := BitVec 12

/-- A register index 0 to 15: the fields X and Y, and the register named by a key-wait (R12, R31). -/
abbrev Reg := Fin 16

/-- A 4-bit count 0 to 15: the field N (R12). -/
abbrev Count := Fin 16

/-- A key number 0 to 15 (R30). -/
abbrev KeyNo := Fin 16

/-- `zext_16` of a 12-bit address (R10, R82). -/
def zext16 (a : Addr) : Word := BitVec.ofNat 16 a.toNat

/-- `w[hi:lo]` as an unsigned number (R9). -/
def bits (w : Word) (hi lo : Nat) : Nat := w.toNat / 2 ^ lo % 2 ^ (hi + 1 - lo)

end Sys2Proof
end

