-- ==== Sys2Proof/Config.lean ====
section
/-! DEFINITION. The parameters the spec leaves to the implementation (spec/00_scope.md R8) and the
one free value, the random byte of CXNN (spec/10_state.md R34). -/

namespace Sys2Proof

/-- `P_ADDR`: what an address above 0xFFF resolves to (spec/20_memory.md R52, D3). -/
inductive AddrPolicy where
  | wrap | clamp | fault
deriving DecidableEq, Repr

/-- `P_ODD_PC`: what a fetch at an odd `PC` does (spec/40_pipeline.md R101, D5). -/
inductive OddPcPolicy where
  | fault | fetch
deriving DecidableEq, Repr

/-- `P_RESERVED_WRITE`: what a program store below 0x200 does (spec/20_memory.md R54, D6). -/
inductive ReservedWritePolicy where
  | fault | allow
deriving DecidableEq, Repr

/-- `P_SPRITE_EDGE`: sprites are clipped or wrapped at the display's edges (spec/45_display.md R191, D8). -/
inductive SpriteEdge where
  | clip | wrap
deriving DecidableEq, Repr

/-- `P_SHIFT_SRC`: the source register of 8XY6 and 8XYE (spec/42_arithmetic.md R138, D10). -/
inductive ShiftSource where
  | vy | vx
deriving DecidableEq, Repr

/-- `P_LOGIC_VF`: VF after 8XY1, 8XY2 and 8XY3 (spec/42_arithmetic.md R132, D11). -/
inductive LogicFlag where
  | unchanged | reset
deriving DecidableEq, Repr

/-- `P_LDST_I`: `I` after FX55 and FX65 (spec/44_memory_index.md R172, D12). -/
inductive LoadStoreIndex where
  | increment | unchanged
deriving DecidableEq, Repr

/-- `P_KEY_INDEX` and `P_FONT_DIGIT`: a register value above 15 that names a key or a font digit is an
error, or its low nibble is taken (spec/47_input.md R220, D16; spec/44_memory_index.md R175, D17). -/
inductive NibblePolicy where
  | fault | mask
deriving DecidableEq, Repr

/-- `P_KEYWAIT_PC`: whether FX0A's advance of `PC` happens at the resolving key press or at once
(spec/47_input.md R223, D18). -/
inductive KeywaitPc where
  | atResolve | atIssue
deriving DecidableEq, Repr

/-- `P_SYS`: 0NNN words other than 00E0 and 00EE are unknown, or do nothing (spec/30_encoding.md R86, D2). -/
inductive SysPolicy where
  | unknown | noOp
deriving DecidableEq, Repr

/-- The parameters of R8, one field a row of its table but the last (`RandByte`, below). -/
structure Config where
  addr          : AddrPolicy
  oddPc         : OddPcPolicy
  reservedWrite : ReservedWritePolicy
  fontBase      : Addr
  spriteEdge    : SpriteEdge
  shiftSrc      : ShiftSource
  logicVf       : LogicFlag
  ldstI         : LoadStoreIndex
  keyIndex      : NibblePolicy
  fontDigit     : NibblePolicy
  keywaitPc     : KeywaitPc
  sys           : SysPolicy
deriving DecidableEq, Repr

/-- The default of every parameter (R8). -/
def Config.defaults : Config where
  addr          := .wrap
  oddPc         := .fault
  reservedWrite := .fault
  fontBase      := 0x050
  spriteEdge    := .clip
  shiftSrc      := .vy
  logicVf       := .unchanged
  ldstI         := .increment
  keyIndex      := .fault
  fontDigit     := .fault
  keywaitPc     := .atResolve
  sys           := .unknown

/-- FREE VALUE `RandByte`: the byte the `n`-th draw gives, "any 8-bit value, with no law linking one
draw to another" (spec/10_state.md R34). It has no body, so nothing can be proved of its value.
DESIGN CHOICE, log 2: draws are numbered by `State.draws`. -/
opaque Config.randByte : Nat → Byte

end Sys2Proof
end

