-- ==== Sys2Proof/Syntax.lean ====
section
/-! DEFINITION. The 34 instructions of spec/30_encoding.md R83 and spec/opcode_table.json, one
constructor a row, with the operand fields of spec/00_scope.md R12. -/

namespace Sys2Proof

/-- One decoded instruction. The operand types hold exactly the values the encoding's fields hold
(R82): `x`, `y` register indices, `nn` an immediate byte, `nnn` a 12-bit address, `n` a nibble count. -/
inductive Instr where
  /-- 00E0 `CLS` (R190). -/
  | cls
  /-- 00EE `RET` (R153). -/
  | ret
  /-- 1NNN `JP addr` (R150). -/
  | jp (nnn : Addr)
  /-- 2NNN `CALL addr` (R152). -/
  | call (nnn : Addr)
  /-- 3XNN `SE Vx, byte` (R154). -/
  | seImm (x : Reg) (nn : Byte)
  /-- 4XNN `SNE Vx, byte` (R155). -/
  | sneImm (x : Reg) (nn : Byte)
  /-- 5XY0 `SE Vx, Vy` (R156). -/
  | seReg (x y : Reg)
  /-- 6XNN `LD Vx, byte` (R120). -/
  | ldImm (x : Reg) (nn : Byte)
  /-- 7XNN `ADD Vx, byte` (R131). -/
  | addImm (x : Reg) (nn : Byte)
  /-- 8XY0 `LD Vx, Vy` (R121). -/
  | ldReg (x y : Reg)
  /-- 8XY1 `OR Vx, Vy` (R132). -/
  | orReg (x y : Reg)
  /-- 8XY2 `AND Vx, Vy` (R133). -/
  | andReg (x y : Reg)
  /-- 8XY3 `XOR Vx, Vy` (R134). -/
  | xorReg (x y : Reg)
  /-- 8XY4 `ADD Vx, Vy` (R135). -/
  | addReg (x y : Reg)
  /-- 8XY5 `SUB Vx, Vy` (R136). -/
  | sub (x y : Reg)
  /-- 8XY6 `SHR Vx, Vy` (R138). -/
  | shr (x y : Reg)
  /-- 8XY7 `SUBN Vx, Vy` (R137). -/
  | subn (x y : Reg)
  /-- 8XYE `SHL Vx, Vy` (R139). -/
  | shl (x y : Reg)
  /-- 9XY0 `SNE Vx, Vy` (R157). -/
  | sneReg (x y : Reg)
  /-- ANNN `LD I, addr` (R170). -/
  | ldI (nnn : Addr)
  /-- BNNN `JP V0, addr` (R151). -/
  | jpV0 (nnn : Addr)
  /-- CXNN `RND Vx, byte` (R213). -/
  | rnd (x : Reg) (nn : Byte)
  /-- DXYN `DRW Vx, Vy, nibble` (R192). -/
  | drw (x y : Reg) (n : Count)
  /-- EX9E `SKP Vx` (R221). -/
  | skp (x : Reg)
  /-- EXA1 `SKNP Vx` (R222). -/
  | sknp (x : Reg)
  /-- FX07 `LD Vx, DT` (R210). -/
  | ldVxDt (x : Reg)
  /-- FX0A `LD Vx, K` (R223). -/
  | ldVxK (x : Reg)
  /-- FX15 `LD DT, Vx` (R211). -/
  | ldDtVx (x : Reg)
  /-- FX18 `LD ST, Vx` (R212). -/
  | ldStVx (x : Reg)
  /-- FX1E `ADD I, Vx` (R171). -/
  | addIVx (x : Reg)
  /-- FX29 `LD F, Vx` (R175). -/
  | ldFVx (x : Reg)
  /-- FX33 `LD B, Vx` (R174). -/
  | ldBVx (x : Reg)
  /-- FX55 `LD [I], Vx` (R172). -/
  | ldMemVx (x : Reg)
  /-- FX65 `LD Vx, [I]` (R173). -/
  | ldVxMem (x : Reg)
deriving DecidableEq, Repr

end Sys2Proof
end

