-- ==== Sys2Proof/WellFormed.lean ====
section
/-! DEFINITION. The well-formedness checks: the parameters' one constraint (spec/00_scope.md R8), the
size of a program LOAD installs (spec/70_reset_and_hazards.md R262), and the operand values as an
assembler line writes them (spec/30_encoding.md R81, R88). Every term of `Instr` is well-formed: the types
of its operands hold exactly the values of the encoding's fields (R82). -/

namespace Sys2Proof

/-- `P_FONT_BASE + 80 <= 0x200` (R8). -/
def Config.wf (c : Config) : Bool := decide (c.fontBase.toNat + 80 ≤ 0x200)

/-- The most bytes a program has: 4096 - 512 (R7, R262). -/
def maxProgramBytes : Nat := 4096 - 512

/-- LOAD installs the bytes; a longer program is `ProgramTooLarge` (R262). -/
def programFits (bytes : List Byte) : Bool := decide (bytes.length ≤ maxProgramBytes)

/-- One operand as an assembler line writes it (R88): a number not yet known to fit its field. -/
inductive RawOperand where
  /-- `Vx`, `Vy`: V0 to VF. -/
  | reg (n : Nat)
  /-- `byte`: an 8-bit value. -/
  | byte (n : Nat)
  /-- `addr`: a 12-bit value. -/
  | addr (n : Nat)
  /-- `nibble`: 0 to 15. -/
  | nibble (n : Nat)
deriving DecidableEq, Repr

/-- The operand fits its field (R12, R88). -/
def RawOperand.wf : RawOperand → Bool
  | .reg n    => decide (n ≤ 15)
  | .byte n   => decide (n ≤ 0xFF)
  | .addr n   => decide (n ≤ 0xFFF)
  | .nibble n => decide (n ≤ 15)

/-- The operands of an instruction as an assembler line writes them, in the order of R83's syntax
column, its literal keywords (`V0`, `I`, `DT`, `ST`, `K`, `F`, `B`, `[I]`) left out. -/
def Instr.operands : Instr → List RawOperand
  | .cls | .ret => []
  | .jp nnn | .call nnn | .ldI nnn | .jpV0 nnn => [.addr nnn.toNat]
  | .seImm x nn | .sneImm x nn | .ldImm x nn | .addImm x nn | .rnd x nn => [.reg x.val, .byte nn.toNat]
  | .seReg x y | .ldReg x y | .orReg x y | .andReg x y | .xorReg x y | .addReg x y | .sub x y
  | .shr x y | .subn x y | .shl x y | .sneReg x y => [.reg x.val, .reg y.val]
  | .drw x y n => [.reg x.val, .reg y.val, .nibble n.val]
  | .skp x | .sknp x | .ldVxDt x | .ldVxK x | .ldDtVx x | .ldStVx x | .addIVx x | .ldFVx x
  | .ldBVx x | .ldMemVx x | .ldVxMem x => [.reg x.val]

/-- Every operand fits its field. The operand types make it true of every `Instr`
(`Laws.OperandsFit`); a line of raw operands can fail it. -/
def Instr.wf (i : Instr) : Bool := i.operands.all RawOperand.wf

end Sys2Proof
end

