-- ==== Sys2Proof/Decode.lean ====
section
/-! DEFINITION. Decoding and encoding of instruction words (spec/30_encoding.md R80 to R87). -/

namespace Sys2Proof

/-- `X = w[11:8]` (R12). -/
def fieldX (w : Word) : Reg := Fin.ofNat 16 (bits w 11 8)

/-- `Y = w[7:4]` (R12). -/
def fieldY (w : Word) : Reg := Fin.ofNat 16 (bits w 7 4)

/-- `N = w[3:0]` (R12). -/
def fieldN (w : Word) : Count := Fin.ofNat 16 (bits w 3 0)

/-- `NN = w[7:0]` (R12). -/
def fieldNN (w : Word) : Byte := BitVec.ofNat 8 (bits w 7 0)

/-- `NNN = w[11:0]` (R12). -/
def fieldNNN (w : Word) : Addr := BitVec.ofNat 12 (bits w 11 0)

/-- The rows of leading nibble 8, by the function nibble `w[3:0]` (R83). -/
def decodeArith (w : Word) : Option Instr :=
  match bits w 3 0 with
  | 0x0 => some (.ldReg (fieldX w) (fieldY w))
  | 0x1 => some (.orReg (fieldX w) (fieldY w))
  | 0x2 => some (.andReg (fieldX w) (fieldY w))
  | 0x3 => some (.xorReg (fieldX w) (fieldY w))
  | 0x4 => some (.addReg (fieldX w) (fieldY w))
  | 0x5 => some (.sub (fieldX w) (fieldY w))
  | 0x6 => some (.shr (fieldX w) (fieldY w))
  | 0x7 => some (.subn (fieldX w) (fieldY w))
  | 0xE => some (.shl (fieldX w) (fieldY w))
  | _   => none

/-- The rows of leading nibble F, by the function byte `w[7:0]` (R83). -/
def decodeMisc (w : Word) : Option Instr :=
  match bits w 7 0 with
  | 0x07 => some (.ldVxDt (fieldX w))
  | 0x0A => some (.ldVxK (fieldX w))
  | 0x15 => some (.ldDtVx (fieldX w))
  | 0x18 => some (.ldStVx (fieldX w))
  | 0x1E => some (.addIVx (fieldX w))
  | 0x29 => some (.ldFVx (fieldX w))
  | 0x33 => some (.ldBVx (fieldX w))
  | 0x55 => some (.ldMemVx (fieldX w))
  | 0x65 => some (.ldVxMem (fieldX w))
  | _    => none

/-- The decode of a word by leading nibble, every fixed nibble strict (R83, R85). `none` is a word
that matches no row. -/
def decode (w : Word) : Option Instr :=
  match bits w 15 12 with
  | 0x0 =>
    match bits w 11 0 with
    | 0x0E0 => some .cls
    | 0x0EE => some .ret
    | _     => none
  | 0x1 => some (.jp (fieldNNN w))
  | 0x2 => some (.call (fieldNNN w))
  | 0x3 => some (.seImm (fieldX w) (fieldNN w))
  | 0x4 => some (.sneImm (fieldX w) (fieldNN w))
  | 0x5 => if bits w 3 0 = 0 then some (.seReg (fieldX w) (fieldY w)) else none
  | 0x6 => some (.ldImm (fieldX w) (fieldNN w))
  | 0x7 => some (.addImm (fieldX w) (fieldNN w))
  | 0x8 => decodeArith w
  | 0x9 => if bits w 3 0 = 0 then some (.sneReg (fieldX w) (fieldY w)) else none
  | 0xA => some (.ldI (fieldNNN w))
  | 0xB => some (.jpV0 (fieldNNN w))
  | 0xC => some (.rnd (fieldX w) (fieldNN w))
  | 0xD => some (.drw (fieldX w) (fieldY w) (fieldN w))
  | 0xE =>
    match bits w 7 0 with
    | 0x9E => some (.skp (fieldX w))
    | 0xA1 => some (.sknp (fieldX w))
    | _    => none
  | 0xF => decodeMisc w
  | _   => none

/-- What a word decodes to under the parameter `P_SYS` (R84 to R86, spec/40_pipeline.md R102). -/
inductive Decoded where
  /-- A row of R83 with its fields. -/
  | instr (i : Instr)
  /-- A 0NNN word of no row under `P_SYS = NoOp`: it changes nothing but `PC` (R86). -/
  | sysNoOp (nnn : Addr)
  /-- `Unknown`: executing it raises `UnknownOpcode(w)` (R85). -/
  | unknown (w : Word)
deriving DecidableEq, Repr

/-- `Decode(w)` of spec/40_pipeline.md R102: "Decoding reads no state but `w` and the parameter
`P_SYS`". -/
def decodeUnder (p : SysPolicy) (w : Word) : Decoded :=
  match decode w with
  | some i => .instr i
  | none =>
    match p with
    | .unknown => .unknown w
    | .noOp => if bits w 15 12 = 0 then .sysNoOp (fieldNNN w) else .unknown w

/-- The word of two bytes, the first in bits 15 to 8 (spec/20_memory.md R55). -/
def wordOfBytes (hi lo : Byte) : Word := BitVec.ofNat 16 (hi.toNat * 256 + lo.toNat)

/-- `w[15:8]`, the byte at the lower address (spec/20_memory.md R55). -/
def highByte (w : Word) : Byte := BitVec.ofNat 8 (bits w 15 8)

/-- `w[7:0]`, the byte at the higher address (spec/20_memory.md R55). -/
def lowByte (w : Word) : Byte := BitVec.ofNat 8 (bits w 7 0)

/-- Why the byte decoder gives no instruction. -/
inductive DecodeReject where
  /-- Fewer than the 2 bytes of an instruction (R80). -/
  | truncated
  /-- The word matches no row of R83 (R85). -/
  | unknownOpcode (w : Word)
deriving DecidableEq, Repr

/-- Decode the first instruction of a list of bytes, and give the rest of the list (R80). -/
def decodeBytes : List Byte → Except DecodeReject (Instr × List Byte)
  | hi :: lo :: rest =>
    match decode (wordOfBytes hi lo) with
    | some i => .ok (i, rest)
    | none   => .error (.unknownOpcode (wordOfBytes hi lo))
  | _ => .error .truncated

/-! ## Encoding: the formats of R81 -/

/-- Format NNN. -/
def formatNNN (o : Nat) (nnn : Addr) : Word := BitVec.ofNat 16 (o * 0x1000 + nnn.toNat)

/-- Format XNN. -/
def formatXNN (o : Nat) (x : Reg) (nn : Byte) : Word :=
  BitVec.ofNat 16 (o * 0x1000 + x.val * 0x100 + nn.toNat)

/-- Formats XY and XYN: `f` is the fixed function nibble, or N. -/
def formatXYN (o : Nat) (x y : Reg) (f : Nat) : Word :=
  BitVec.ofNat 16 (o * 0x1000 + x.val * 0x100 + y.val * 0x10 + f)

/-- Format X: `f` is the function byte. -/
def formatX (o : Nat) (x : Reg) (f : Nat) : Word :=
  BitVec.ofNat 16 (o * 0x1000 + x.val * 0x100 + f)

/-- The word of an instruction (R83, R88: "Assembling is the inverse of rule R83"). -/
def encode : Instr → Word
  | .cls          => 0x00E0
  | .ret          => 0x00EE
  | .jp nnn       => formatNNN 0x1 nnn
  | .call nnn     => formatNNN 0x2 nnn
  | .seImm x nn   => formatXNN 0x3 x nn
  | .sneImm x nn  => formatXNN 0x4 x nn
  | .seReg x y    => formatXYN 0x5 x y 0x0
  | .ldImm x nn   => formatXNN 0x6 x nn
  | .addImm x nn  => formatXNN 0x7 x nn
  | .ldReg x y    => formatXYN 0x8 x y 0x0
  | .orReg x y    => formatXYN 0x8 x y 0x1
  | .andReg x y   => formatXYN 0x8 x y 0x2
  | .xorReg x y   => formatXYN 0x8 x y 0x3
  | .addReg x y   => formatXYN 0x8 x y 0x4
  | .sub x y      => formatXYN 0x8 x y 0x5
  | .shr x y      => formatXYN 0x8 x y 0x6
  | .subn x y     => formatXYN 0x8 x y 0x7
  | .shl x y      => formatXYN 0x8 x y 0xE
  | .sneReg x y   => formatXYN 0x9 x y 0x0
  | .ldI nnn      => formatNNN 0xA nnn
  | .jpV0 nnn     => formatNNN 0xB nnn
  | .rnd x nn     => formatXNN 0xC x nn
  | .drw x y n    => formatXYN 0xD x y n.val
  | .skp x        => formatX 0xE x 0x9E
  | .sknp x       => formatX 0xE x 0xA1
  | .ldVxDt x     => formatX 0xF x 0x07
  | .ldVxK x      => formatX 0xF x 0x0A
  | .ldDtVx x     => formatX 0xF x 0x15
  | .ldStVx x     => formatX 0xF x 0x18
  | .addIVx x     => formatX 0xF x 0x1E
  | .ldFVx x      => formatX 0xF x 0x29
  | .ldBVx x      => formatX 0xF x 0x33
  | .ldMemVx x    => formatX 0xF x 0x55
  | .ldVxMem x    => formatX 0xF x 0x65

/-- The two bytes of an instruction, in address order (R80). -/
def encodeBytes (i : Instr) : List Byte := [highByte (encode i), lowByte (encode i)]

/-! ## The opcode table as data -/

/-- A row of spec/opcode_table.json: the bits that are fixed and their value. -/
structure OpcodeRow where
  mnemonic : String
  value    : Word
  mask     : Word
deriving DecidableEq, Repr

/-- The word matches the row: every fixed bit has the row's value (R83). -/
def OpcodeRow.accepts (r : OpcodeRow) (w : Word) : Bool := w &&& r.mask == r.value

/-- The rows whose only fixed nibble is the leading one, or that have no field. -/
def opcodeRowsLead : List OpcodeRow :=
  [⟨"CLS", 0x00E0, 0xFFFF⟩, ⟨"RET", 0x00EE, 0xFFFF⟩, ⟨"JP", 0x1000, 0xF000⟩, ⟨"CALL", 0x2000, 0xF000⟩,
   ⟨"SE_IMM", 0x3000, 0xF000⟩, ⟨"SNE_IMM", 0x4000, 0xF000⟩, ⟨"LD_IMM", 0x6000, 0xF000⟩,
   ⟨"ADD_IMM", 0x7000, 0xF000⟩, ⟨"LD_I", 0xA000, 0xF000⟩, ⟨"JP_V0", 0xB000, 0xF000⟩,
   ⟨"RND", 0xC000, 0xF000⟩, ⟨"DRW", 0xD000, 0xF000⟩]

/-- The rows of format XY. -/
def opcodeRowsXY : List OpcodeRow :=
  [⟨"SE_REG", 0x5000, 0xF00F⟩, ⟨"LD_REG", 0x8000, 0xF00F⟩, ⟨"OR", 0x8001, 0xF00F⟩,
   ⟨"AND", 0x8002, 0xF00F⟩, ⟨"XOR", 0x8003, 0xF00F⟩, ⟨"ADD_REG", 0x8004, 0xF00F⟩,
   ⟨"SUB", 0x8005, 0xF00F⟩, ⟨"SHR", 0x8006, 0xF00F⟩, ⟨"SUBN", 0x8007, 0xF00F⟩,
   ⟨"SHL", 0x800E, 0xF00F⟩, ⟨"SNE_REG", 0x9000, 0xF00F⟩]

/-- The rows of format X. -/
def opcodeRowsX : List OpcodeRow :=
  [⟨"SKP", 0xE09E, 0xF0FF⟩, ⟨"SKNP", 0xE0A1, 0xF0FF⟩, ⟨"LD_VX_DT", 0xF007, 0xF0FF⟩,
   ⟨"LD_VX_K", 0xF00A, 0xF0FF⟩, ⟨"LD_DT_VX", 0xF015, 0xF0FF⟩, ⟨"LD_ST_VX", 0xF018, 0xF0FF⟩,
   ⟨"ADD_I_VX", 0xF01E, 0xF0FF⟩, ⟨"LD_F_VX", 0xF029, 0xF0FF⟩, ⟨"LD_B_VX", 0xF033, 0xF0FF⟩,
   ⟨"LD_MEM_VX", 0xF055, 0xF0FF⟩, ⟨"LD_VX_MEM", 0xF065, 0xF0FF⟩]

/-- The 34 rows of spec/opcode_table.json. -/
def opcodeRows : List OpcodeRow := opcodeRowsLead ++ opcodeRowsXY ++ opcodeRowsX

/-- The mnemonic of an instruction in spec/opcode_table.json. -/
def Instr.mnemonic : Instr → String
  | .cls         => "CLS"
  | .ret         => "RET"
  | .jp _        => "JP"
  | .call _      => "CALL"
  | .seImm _ _   => "SE_IMM"
  | .sneImm _ _  => "SNE_IMM"
  | .seReg _ _   => "SE_REG"
  | .ldImm _ _   => "LD_IMM"
  | .addImm _ _  => "ADD_IMM"
  | .ldReg _ _   => "LD_REG"
  | .orReg _ _   => "OR"
  | .andReg _ _  => "AND"
  | .xorReg _ _  => "XOR"
  | .addReg _ _  => "ADD_REG"
  | .sub _ _     => "SUB"
  | .shr _ _     => "SHR"
  | .subn _ _    => "SUBN"
  | .shl _ _     => "SHL"
  | .sneReg _ _  => "SNE_REG"
  | .ldI _       => "LD_I"
  | .jpV0 _      => "JP_V0"
  | .rnd _ _     => "RND"
  | .drw _ _ _   => "DRW"
  | .skp _       => "SKP"
  | .sknp _      => "SKNP"
  | .ldVxDt _    => "LD_VX_DT"
  | .ldVxK _     => "LD_VX_K"
  | .ldDtVx _    => "LD_DT_VX"
  | .ldStVx _    => "LD_ST_VX"
  | .addIVx _    => "ADD_I_VX"
  | .ldFVx _     => "LD_F_VX"
  | .ldBVx _     => "LD_B_VX"
  | .ldMemVx _   => "LD_MEM_VX"
  | .ldVxMem _   => "LD_VX_MEM"

/-! ## The host's reading of a table word -/

/-- The instruction the decoder reads from the word of a table row: bit 0 of `w` is the least
significant bit of the (only) 16-bit word, the bits from `nbits` up are zero, and the word's bytes are
laid out most significant first (R80, spec/20_memory.md R55). -/
def decodeTableWord (nbits w : Nat) : Option Instr :=
  let word : Word := BitVec.ofNat 16 (w % 2 ^ nbits)
  match decodeBytes [highByte word, lowByte word] with
  | .ok (i, _) => some i
  | .error _   => none

end Sys2Proof
end

