-- ==== Sys2Proof/Machine/State.lean ====
section
/-! DEFINITION. The state of the block as plain data (spec/10_state.md R20), the errors it latches, and
its reset values (R35). -/

namespace Sys2Proof.Machine

/-- A `CpuError`, raised by STEP, with the value it records (spec/60_exceptions.md R230). It is latched
in `State.halt` (R231): a next state, not a `Fault`. -/
inductive CpuError where
  /-- Decode: the word matches no instruction. -/
  | unknownOpcode (w : Word)
  /-- 2NNN at depth 16; records its `PC`. -/
  | stackOverflow (pc : Word)
  /-- 00EE with an empty stack; records its `PC`. -/
  | stackUnderflow (pc : Word)
  /-- An address above 0xFFF under `P_ADDR = Fault`; a natural number, not cut to 16 bits (R52). -/
  | addressOutOfRange (a : Nat)
  /-- A fetch at an odd `PC` under `P_ODD_PC = Fault`. -/
  | misalignedFetch (pc : Word)
  /-- A program store below 0x200 under `P_RESERVED_WRITE = Fault`; records the resolved address. -/
  | reservedWrite (a : Nat)
  /-- EX9E or EXA1 with `V[X] > 15` under `P_KEY_INDEX = Fault`. -/
  | keyIndexOutOfRange (v : Byte)
  /-- FX29 with `V[X] > 15` under `P_FONT_DIGIT = Fault`. -/
  | fontDigitOutOfRange (v : Byte)
deriving DecidableEq, Repr

/-- A `LoadError`, the result of a LOAD that installs nothing (spec/60_exceptions.md R230). -/
inductive LoadError where
  /-- The program has more than 3584 bytes; records its length. -/
  | programTooLarge (length : Nat)
deriving DecidableEq, Repr

/-- The registers V0 to VF (R21). -/
abbrev Regs := Vector Byte 16

/-- The display: 32 rows of 64 pixels, `true` is lit (R28). -/
abbrev Raster := Vector (Vector Bool 64) 32

/-- Memory: the bytes that differ from what an unlisted address reads as, addresses strictly rising.
`Machine/Memory.lean` says what an unlisted address reads as and what the canonical form is. -/
abbrev Memory := List Host.Cell

/-- The state tuple `S` of R20, field by field, and the model's own two fields. -/
structure State where
  /-- `Mem`, 4096 bytes (R25). -/
  mem   : Memory
  /-- `V`, 16 registers of 8 bits (R21, R22). -/
  v     : Regs
  /-- `I`, the index register (R23). -/
  i     : Word
  /-- `PC`, the program counter (R24). -/
  pc    : Word
  /-- `Stack`, the call stack, last element the top (R26). -/
  stack : List Word
  /-- `FB`, the framebuffer (R28). -/
  fb    : Raster
  /-- `DT`, the delay timer (R29). -/
  dt    : Byte
  /-- `ST`, the sound timer (R29). -/
  st    : Byte
  /-- `Key`, the key-down latch (R30). -/
  key   : Vector Bool 16
  /-- `Wait`, the pending key-wait marker (R31). -/
  wait  : Option Reg
  /-- `Halt`, the fatal-error latch (R32). -/
  halt  : Option CpuError
  /-- The MODEL's: the parameters of spec/00_scope.md R8, read and never written (log 1). -/
  cfg   : Config
  /-- The MODEL's: how many random bytes have been drawn (R34; log 2). -/
  draws : Nat
deriving DecidableEq, Repr

/-- A fault that stops the machine. It has NO constructor: the spec gives every STEP its next state,
an error's too (spec/60_exceptions.md R231), so no step of this model faults (safe; log 3). -/
inductive Fault where
deriving DecidableEq, Repr

/-- A refusal. -/
inductive Refusal where
  /-- Raised by an arm of `exec` whose instruction has no meaning yet; no arm is left so (safe). -/
  | notModelled (mnemonic : String)
deriving DecidableEq, Repr

/-- Every field at its value of R35, for the parameters `c`; the model's draw count is kept as given,
so that draws after a reset are new ones (log 2). The font is what unlisted memory reads as. -/
def State.resetFor (c : Config) (draws : Nat) : State where
  mem   := []
  v     := Vector.replicate 16 0x00
  i     := 0x0000
  pc    := 0x0200
  stack := []
  fb    := Vector.replicate 32 (Vector.replicate 64 false)
  dt    := 0x00
  st    := 0x00
  key   := Vector.replicate 16 false
  wait  := none
  halt  := none
  cfg   := c
  draws := draws

/-- The machine right after CONSTRUCT (spec/70_reset_and_hazards.md R260), with the default parameters
of spec/00_scope.md R8 (DESIGN CHOICE, log 1) and no byte drawn yet (DESIGN CHOICE, log 2). -/
def State.reset : State := State.resetFor Config.defaults 0

end Sys2Proof.Machine
end

