-- ==== Sys2Proof/Machine/Memory.lean ====
section
/-! DEFINITION. Memory: the font table, what an unlisted address reads as, and reading and writing one
byte of the canonical list (spec/20_memory.md R50, R51, R57; spec/10_state.md R35). -/

namespace Sys2Proof.Machine

/-- The number of bytes of memory (R50). -/
def memoryBytes : Nat := 4096

/-- The first address of the program region, and of a loaded program (R51). -/
def programBase : Nat := 0x200

/-- The font's 16 glyphs of 5 bytes, top row first (R57). -/
def fontTable : List Byte :=
  [0xF0, 0x90, 0x90, 0x90, 0xF0,  0x20, 0x60, 0x20, 0x20, 0x70,
   0xF0, 0x10, 0xF0, 0x80, 0xF0,  0xF0, 0x10, 0xF0, 0x10, 0xF0] ++
  [0x90, 0x90, 0xF0, 0x10, 0x10,  0xF0, 0x80, 0xF0, 0x10, 0xF0,
   0xF0, 0x80, 0xF0, 0x90, 0xF0,  0xF0, 0x10, 0x20, 0x40, 0x40] ++
  [0xF0, 0x90, 0xF0, 0x90, 0xF0,  0xF0, 0x90, 0xF0, 0x10, 0xF0,
   0xF0, 0x90, 0xF0, 0x90, 0x90,  0xE0, 0x90, 0xE0, 0x90, 0xE0] ++
  [0xF0, 0x80, 0x80, 0x80, 0xF0,  0xE0, 0x90, 0x90, 0x90, 0xE0,
   0xF0, 0x80, 0xF0, 0x80, 0xF0,  0xF0, 0x80, 0xF0, 0x80, 0x80]

/-- What an address not listed reads as: the reset contents of R35, the font at `P_FONT_BASE` (its
first address `base`) and zero everywhere else. -/
def unlistedByte (base a : Nat) : Byte :=
  if base ≤ a then fontTable.getD (a - base) 0x00 else 0x00

/-- The byte listed for an address, if one is. -/
def listedByte : Memory → Nat → Option Byte
  | [], _ => none
  | (a', b) :: m, a => if a' = a then some b else listedByte m a

/-- `Mem[a]`. -/
def memGet (base : Nat) (m : Memory) (a : Nat) : Byte :=
  (listedByte m a).getD (unlistedByte base a)

/-- List `b` for the address `a`, or list nothing for it where `b` is what it reads as unlisted. -/
def memPut (base : Nat) : Memory → Nat → Byte → Memory
  | [], a, b => if b = unlistedByte base a then [] else [(a, b)]
  | (a', b') :: m, a, b =>
    if a' < a then (a', b') :: memPut base m a b
    else
      let rest := if a' = a then m else (a', b') :: m
      if b = unlistedByte base a then rest else (a, b) :: rest

/-- Write the bytes of a list to the addresses of a list, in order: a later write to the same address
stands (spec/40_pipeline.md R103, spec/44_memory_index.md R172). -/
def memPutAll (base : Nat) (m : Memory) : List Nat → List Byte → Memory
  | a :: as, b :: bs => memPutAll base (memPut base m a b) as bs
  | _, _ => m

/-- The canonical form from the address `lo` up: addresses rising, below 4096, and no entry equal to
what its address reads as unlisted. -/
def memWfFrom (base lo : Nat) : Memory → Bool
  | [] => true
  | (a, b) :: m =>
    decide (lo ≤ a) && decide (a < memoryBytes) && decide (b ≠ unlistedByte base a) && memWfFrom base (a + 1) m

/-- The canonical form: equal memories are equal lists. -/
def Memory.wf (base : Nat) (m : Memory) : Bool := memWfFrom base 0 m

end Sys2Proof.Machine
end

