-- ==== Sys2Proof/Machine/Ops.lean ====
section
/-! DEFINITION. The named operations over registers, memory, the stack and the error latch
(spec/00_scope.md R11), each written once. -/

namespace Sys2Proof.Machine

/-! ## Registers and single fields -/

/-- VF, the flag register (spec/10_state.md R22). -/
def regVF : Reg := 15

/-- `V[x]` (R11, R21). -/
def State.reg (s : State) (x : Reg) : Byte := s.v[x.val]

/-- `V[x] <- b` (R11, R21): no register is hardwired. -/
def State.setReg (s : State) (x : Reg) (b : Byte) : State := { s with v := s.v.set x.val b }

/-- `V[15] <- b`, the flag write (spec/10_state.md R22, spec/42_arithmetic.md R130). -/
def State.setFlag (s : State) (b : Byte) : State := s.setReg regVF b

/-- `I <- w` (R11, R23). -/
def State.setI (s : State) (w : Word) : State := { s with i := w }

/-- `PC <- w` (R11, R24). -/
def State.setPc (s : State) (w : Word) : State := { s with pc := w }

/-- The stack becomes `l` (R26). -/
def State.setStack (s : State) (l : List Word) : State := { s with stack := l }

/-- The framebuffer becomes `fb` (R28). -/
def State.setFb (s : State) (fb : Raster) : State := { s with fb := fb }

/-- `DT <- b` (R11, R29). -/
def State.setDt (s : State) (b : Byte) : State := { s with dt := b }

/-- `ST <- b` (R11, R29). -/
def State.setSt (s : State) (b : Byte) : State := { s with st := b }

/-- `Key[k] <- down` (R30). -/
def State.setKey (s : State) (k : KeyNo) (down : Bool) : State := { s with key := s.key.set k.val down }

/-- `Key[k]` (R11, R30). -/
def State.keyDown (s : State) (k : KeyNo) : Bool := s.key[k.val]

/-- `Wait <- r` (R31). -/
def State.setWait (s : State) (r : Option Reg) : State := { s with wait := r }

/-- `Halt <- e` (R32). -/
def State.setHalt (s : State) (e : Option CpuError) : State := { s with halt := e }

/-- The memory becomes `m` (R25). -/
def State.setMem (s : State) (m : Memory) : State := { s with mem := m }

/-- One more random byte has been drawn (R34; log 2). -/
def State.countDraw (s : State) : State := { s with draws := s.draws + 1 }

/-- Registers `V[k]`, `V[k+1]`, ... take the bytes of a list in order, from `k = 0`
(spec/44_memory_index.md R173); the others keep their value. -/
def State.setBlock (s : State) (bs : List Byte) : State :=
  { s with v := Vector.ofFn fun k => bs.getD k.val (s.reg k) }

/-! ## Program-counter sequencing (spec/40_pipeline.md R106) -/

/-- `PC <- (PC + 2) mod 2^16`. -/
def State.advance (s : State) : State := s.setPc (s.pc + 2)

/-- `PC <- (PC + 4) mod 2^16`. -/
def State.skipNext (s : State) : State := s.setPc (s.pc + 4)

/-- A skip instruction's next `PC`: plus 4 when its condition holds, plus 2 when it does not. -/
def State.skipIf (s : State) (c : Bool) : State := if c then s.skipNext else s.advance

/-! ## Errors -/

/-- TAKING AN ERROR (spec/60_exceptions.md R231): `Halt <- some e`, "every other field keeps its value
from before the instruction", so `PC` still addresses the failing instruction. There is no handler, no
saved register and no return (R234, R235): only CONSTRUCT and LOAD clear `Halt`. -/
def State.raise (s : State) (e : CpuError) : State := s.setHalt (some e)

/-- End an instruction begun in state `s`: its state, or the error it raised, with every write of the
instruction discarded (spec/40_pipeline.md R100, R103). -/
def finish (s : State) (r : Except CpuError State) : Host.Outcome State Fault Refusal :=
  match r with
  | .ok t    => .next t
  | .error e => .next (s.raise e)

/-! ## Memory access (spec/20_memory.md) -/

/-- The first address of the font, `P_FONT_BASE`. -/
def State.fontBase (s : State) : Nat := s.cfg.fontBase.toNat

/-- `Mem[a]` of a resolved address. -/
def State.byteAt (s : State) (a : Nat) : Byte := memGet s.fontBase s.mem a

/-- Write one byte at a resolved address, with no check. -/
def State.poke (s : State) (a : Nat) (b : Byte) : State := s.setMem (memPut s.fontBase s.mem a b)

/-- `Resolve(a)` (R52). -/
def resolve (c : Config) (a : Nat) : Except CpuError Nat :=
  if a ≤ 0xFFF then .ok a
  else
    match c.addr with
    | .wrap  => .ok (a % 4096)
    | .clamp => .ok 0xFFF
    | .fault => .error (.addressOutOfRange a)

/-- The address of one byte a program stores: resolved, then checked against the reserved region (R54;
the order is that of spec/60_exceptions.md R232). -/
def resolveStore (c : Config) (a : Nat) : Except CpuError Nat :=
  match resolve c a with
  | .error e => .error e
  | .ok r =>
    if r < 0x200 ∧ c.reservedWrite = .fault then .error (.reservedWrite r) else .ok r

/-- The addresses of the `n` bytes from `a` up, each resolved on its own by `f`; the first error, from
the lowest offset up, is the access's (R52, R54, spec/60_exceptions.md R232). -/
def resolveAll (f : Nat → Except CpuError Nat) (a : Nat) : Nat → Except CpuError (List Nat)
  | 0 => .ok []
  | n + 1 =>
    match f a with
    | .error e => .error e
    | .ok r =>
      match resolveAll f (a + 1) n with
      | .error e => .error e
      | .ok rs   => .ok (r :: rs)

/-- `MemRead(a, n)`: the bytes in address order (R53); it changes no state. -/
def memRead (s : State) (a n : Nat) : Except CpuError (List Byte) :=
  match resolveAll (resolve s.cfg) a n with
  | .error e => .error e
  | .ok rs   => .ok (rs.map s.byteAt)

/-- `MemWrite(a, n, v)` of the bytes of `v` in address order: every address is resolved and checked
before any byte is written (R54). -/
def memWrite (s : State) (a : Nat) (bs : List Byte) : Except CpuError State :=
  match resolveAll (resolveStore s.cfg) a bs.length with
  | .error e => .error e
  | .ok rs   => .ok (s.setMem (memPutAll s.fontBase s.mem rs bs))

/-! ## The call stack (spec/10_state.md R27) -/

/-- `Push(v)`. -/
def push (s : State) (v : Word) : Except CpuError State :=
  if s.stack.length = 16 then .error (.stackOverflow s.pc) else .ok (s.setStack (s.stack ++ [v]))

/-- `Pop()`: the popped value and the state without it. -/
def pop (s : State) : Except CpuError (Word × State) :=
  match s.stack.getLast? with
  | none   => .error (.stackUnderflow s.pc)
  | some v => .ok (v, s.setStack s.stack.dropLast)

/-! ## Fetch (spec/40_pipeline.md R101) -/

/-- `Fetch()`: the word at `PC`, the byte at `PC` in bits 15 to 8. The alignment check comes before the
range checks (spec/60_exceptions.md R232). -/
def fetch (s : State) : Except CpuError Word :=
  if s.pc.toNat % 2 = 1 ∧ s.cfg.oddPc = .fault then .error (.misalignedFetch s.pc)
  else
    match resolve s.cfg s.pc.toNat with
    | .error e => .error e
    | .ok a =>
      match resolve s.cfg (s.pc.toNat + 1) with
      | .error e => .error e
      | .ok b => .ok (wordOfBytes (s.byteAt a) (s.byteAt b))

/-- Store the two bytes of a word where `fetch` reads them, with no check (a host's placement, not a
program's store). -/
def State.placeWord (s : State) (w : Word) : State :=
  match resolve s.cfg s.pc.toNat, resolve s.cfg (s.pc.toNat + 1) with
  | .ok a, .ok b => (s.poke a (highByte w)).poke b (lowByte w)
  | _, _ => s

end Sys2Proof.Machine
end

