-- ==== Sys2Proof/Machine/Flags.lean ====
section
/-! DEFINITION. Every flag computation: the byte 0x00 or 0x01 that VF takes (spec/10_state.md R22,
spec/42_arithmetic.md R130). -/

namespace Sys2Proof.Machine

/-- "Flags are the whole byte 0x00 or 0x01" (R130). -/
def flagByte (b : Bool) : Byte := if b then 0x01 else 0x00

/-- Carry of 8XY4: the unbounded sum exceeds 255 (R135). -/
def carryFlag (a b : Byte) : Byte := flagByte (decide (255 < a.toNat + b.toNat))

/-- No-borrow of `a - b`: `a >= b` (R136, R137). -/
def noBorrowFlag (a b : Byte) : Byte := flagByte (decide (b.toNat ≤ a.toNat))

/-- The bit 8XY6 shifts out, bit 0 (R138). -/
def shiftedOutRight (v : Byte) : Byte := v &&& 0x01

/-- The bit 8XYE shifts out, bit 7 (R139). -/
def shiftedOutLeft (v : Byte) : Byte := (v >>> 7) &&& 0x01

/-- VF after 8XY1, 8XY2 and 8XY3: unchanged, or 0x00 under `P_LOGIC_VF = Reset` (R132). -/
def State.logicFlag (s : State) : State :=
  match s.cfg.logicVf with
  | .unchanged => s
  | .reset     => s.setFlag 0x00

/-- VF after DXYN: whether any drawn pixel was on and turned off (spec/45_display.md R192). -/
def collisionFlag (hit : Bool) : Byte := flagByte hit

end Sys2Proof.Machine
end

