-- ==== Sys2Proof/Machine/Operands.lean ====
section
/-! DEFINITION. Every operand form an instruction reads beside a plain register or immediate. -/

namespace Sys2Proof.Machine

/-- The source of 8XY6 and 8XYE (spec/42_arithmetic.md R138). -/
def shiftOperand (s : State) (x y : Reg) : Byte :=
  match s.cfg.shiftSrc with
  | .vy => s.reg y
  | .vx => s.reg x

/-- `KeyIdx(v)` (spec/47_input.md R220). -/
def keyIndex (c : Config) (v : Byte) : Except CpuError KeyNo :=
  if v.toNat ≤ 15 then .ok (Fin.ofNat 16 v.toNat)
  else
    match c.keyIndex with
    | .fault => .error (.keyIndexOutOfRange v)
    | .mask  => .ok (Fin.ofNat 16 (v.toNat % 16))

/-- The hex digit FX29 takes from a register (spec/44_memory_index.md R175). -/
def fontDigit (c : Config) (v : Byte) : Except CpuError Nat :=
  if v.toNat ≤ 15 then .ok v.toNat
  else
    match c.fontDigit with
    | .fault => .error (.fontDigitOutOfRange v)
    | .mask  => .ok (v.toNat % 16)

/-- `P_FONT_BASE + 5 * d` (spec/44_memory_index.md R175). -/
def glyphAddress (c : Config) (d : Nat) : Word := BitVec.ofNat 16 (c.fontBase.toNat + 5 * d)

/-- `V[0] ++ V[1] ++ ... ++ V[X]`, in that order (spec/44_memory_index.md R172). -/
def regBlock (s : State) (x : Reg) : List Byte := s.v.toList.take (x.val + 1)

/-- `I` after FX55 and FX65 (spec/44_memory_index.md R172, R173). -/
def State.stepIndex (s : State) (x : Reg) : State :=
  match s.cfg.ldstI with
  | .increment => s.setI (BitVec.ofNat 16 (s.i.toNat + x.val + 1))
  | .unchanged => s

/-- The decimal digits of a byte: hundreds, tens, ones (spec/44_memory_index.md R174). -/
def bcdDigits (v : Byte) : List Byte :=
  [BitVec.ofNat 8 (v.toNat / 100), BitVec.ofNat 8 (v.toNat / 10 % 10), BitVec.ofNat 8 (v.toNat % 10)]

/-- The target of BNNN: `NNN + V[0]`, which fits 16 bits (spec/43_control_flow.md R151). -/
def indexedTarget (s : State) (nnn : Addr) : Word := BitVec.ofNat 16 (nnn.toNat + (s.reg 0).toNat)

end Sys2Proof.Machine
end

