-- ==== Sys2Proof/Machine/Arith.lean ====
section
/-! DEFINITION. Arithmetic and logic instructions (spec/42_arithmetic.md). All operands are read from
the state before the instruction, and the flag write comes last (R130). -/

namespace Sys2Proof.Machine

/-- `V[X] <- v`, then VF as the logic operations leave it, then `PC + 2` (R132 to R134). -/
def logicResult (x : Reg) (v : Byte) (s : State) : Host.Outcome State Fault Refusal :=
  .next ((s.setReg x v).logicFlag).advance

/-- `V[X] <- v`, then `V[15] <- flag`, then `PC + 2` (R130). -/
def flaggedResult (x : Reg) (v flag : Byte) (s : State) : Host.Outcome State Fault Refusal :=
  .next ((s.setReg x v).setFlag flag).advance

/-- 7XNN `ADD Vx, byte`: no flag (R131). -/
def execAddImm (x : Reg) (nn : Byte) (s : State) : Host.Outcome State Fault Refusal :=
  .next (s.setReg x (s.reg x + nn)).advance

/-- 8XY1 `OR Vx, Vy` (R132). -/
def execOrReg (x y : Reg) (s : State) : Host.Outcome State Fault Refusal :=
  logicResult x (s.reg x ||| s.reg y) s

/-- 8XY2 `AND Vx, Vy` (R133). -/
def execAndReg (x y : Reg) (s : State) : Host.Outcome State Fault Refusal :=
  logicResult x (s.reg x &&& s.reg y) s

/-- 8XY3 `XOR Vx, Vy` (R134). -/
def execXorReg (x y : Reg) (s : State) : Host.Outcome State Fault Refusal :=
  logicResult x (s.reg x ^^^ s.reg y) s

/-- 8XY4 `ADD Vx, Vy` (R135). -/
def execAddReg (x y : Reg) (s : State) : Host.Outcome State Fault Refusal :=
  flaggedResult x (s.reg x + s.reg y) (carryFlag (s.reg x) (s.reg y)) s

/-- 8XY5 `SUB Vx, Vy`: `V[X] - V[Y]` (R136). -/
def execSub (x y : Reg) (s : State) : Host.Outcome State Fault Refusal :=
  flaggedResult x (s.reg x - s.reg y) (noBorrowFlag (s.reg x) (s.reg y)) s

/-- 8XY7 `SUBN Vx, Vy`: `V[Y] - V[X]` (R137). -/
def execSubn (x y : Reg) (s : State) : Host.Outcome State Fault Refusal :=
  flaggedResult x (s.reg y - s.reg x) (noBorrowFlag (s.reg y) (s.reg x)) s

/-- 8XY6 `SHR Vx, Vy` (R138). -/
def execShr (x y : Reg) (s : State) : Host.Outcome State Fault Refusal :=
  flaggedResult x (shiftOperand s x y >>> 1) (shiftedOutRight (shiftOperand s x y)) s

/-- 8XYE `SHL Vx, Vy` (R139). -/
def execShl (x y : Reg) (s : State) : Host.Outcome State Fault Refusal :=
  flaggedResult x (shiftOperand s x y <<< 1) (shiftedOutLeft (shiftOperand s x y)) s

end Sys2Proof.Machine
end

