-- ==== Sys2Proof/Machine/Control.lean ====
section
/-! DEFINITION. Control-flow instructions (spec/43_control_flow.md). Targets are absolute and no
instruction checks a target's alignment (R158). -/

namespace Sys2Proof.Machine

/-- 1NNN `JP addr` (R150). -/
def execJp (nnn : Addr) (s : State) : Host.Outcome State Fault Refusal :=
  .next (s.setPc (zext16 nnn))

/-- BNNN `JP V0, addr` (R151). -/
def execJpV0 (nnn : Addr) (s : State) : Host.Outcome State Fault Refusal :=
  .next (s.setPc (indexedTarget s nnn))

/-- 2NNN `CALL addr`: push `(PC + 2) mod 2^16`, then jump (R152). -/
def execCall (nnn : Addr) (s : State) : Host.Outcome State Fault Refusal :=
  finish s ((push s (s.pc + 2)).map fun t => t.setPc (zext16 nnn))

/-- 00EE `RET`: pop, and jump to the popped value with no further advance (R153). -/
def execRet (s : State) : Host.Outcome State Fault Refusal :=
  finish s ((pop s).map fun p => p.2.setPc p.1)

/-- 3XNN `SE Vx, byte` (R154). -/
def execSeImm (x : Reg) (nn : Byte) (s : State) : Host.Outcome State Fault Refusal :=
  .next (s.skipIf (s.reg x == nn))

/-- 4XNN `SNE Vx, byte` (R155). -/
def execSneImm (x : Reg) (nn : Byte) (s : State) : Host.Outcome State Fault Refusal :=
  .next (s.skipIf (s.reg x != nn))

/-- 5XY0 `SE Vx, Vy` (R156). -/
def execSeReg (x y : Reg) (s : State) : Host.Outcome State Fault Refusal :=
  .next (s.skipIf (s.reg x == s.reg y))

/-- 9XY0 `SNE Vx, Vy` (R157). -/
def execSneReg (x y : Reg) (s : State) : Host.Outcome State Fault Refusal :=
  .next (s.skipIf (s.reg x != s.reg y))

/-- A 0NNN word under `P_SYS = NoOp`: it "changes nothing but `PC <- (PC + 2) mod 2^16`"
(spec/30_encoding.md R86). It has no row in the opcode table, so `step` runs it and not `exec`. -/
def execSysNoOp (s : State) : Host.Outcome State Fault Refusal :=
  .next s.advance

end Sys2Proof.Machine
end

