-- ==== Sys2Proof/Machine/Display.lean ====
section
/-! DEFINITION. Display instructions and the raster engine (spec/45_display.md). -/

namespace Sys2Proof.Machine

/-- `FB[y][x]` (spec/00_scope.md R11). -/
def pixelAt (fb : Raster) (x : Fin 64) (y : Fin 32) : Bool := fb[y.val][x.val]

/-- `FB[y][x] <- not FB[y][x]` (R192). -/
def flipPixel (fb : Raster) (x : Fin 64) (y : Fin 32) : Raster :=
  fb.set y.val (fb[y.val].set x.val (!pixelAt fb x y))

/-- Every pixel off (R190). -/
def darkRaster : Raster := Vector.replicate 32 (Vector.replicate 64 false)

/-- `Place(i, j)` (R191): where the pixel of sprite row `i` and column `j` lands; `none` is offscreen. -/
def placePixel (c : Config) (x0 y0 : Byte) (i j : Nat) : Option (Fin 64 × Fin 32) :=
  match c.spriteEdge with
  | .clip =>
    if x0.toNat % 64 + j ≤ 63 ∧ y0.toNat % 32 + i ≤ 31 then
      some (Fin.ofNat 64 (x0.toNat % 64 + j), Fin.ofNat 32 (y0.toNat % 32 + i))
    else none
  | .wrap => some (Fin.ofNat 64 (x0.toNat + j), Fin.ofNat 32 (y0.toNat + i))

/-- The body of R192's loop for the set pixel of row `i`, column `j`: collision noted, pixel flipped. -/
def drawPixel (c : Config) (x0 y0 : Byte) (i j : Nat) (r : Raster × Bool) : Raster × Bool :=
  match placePixel c x0 y0 i j with
  | none        => r
  | some (x, y) => (flipPixel r.1 x y, r.2 || pixelAt r.1 x y)

/-- Columns 0 to 7 of sprite row `i`: bit `7 - j` of the row's byte is column `j` (R192). -/
def drawRow (c : Config) (x0 y0 : Byte) (i : Nat) (row : Byte) (r : Raster × Bool) : Raster × Bool :=
  (List.range 8).foldl (fun r j => if row.getLsbD (7 - j) then drawPixel c x0 y0 i j r else r) r

/-- The sprite's rows from row `i` on (R192). -/
def drawRows (c : Config) (x0 y0 : Byte) : Nat → List Byte → Raster × Bool → Raster × Bool
  | _, [], r => r
  | i, row :: rows, r => drawRows c x0 y0 (i + 1) rows (drawRow c x0 y0 i row r)

/-- 00E0 `CLS` (R190). -/
def execCls (s : State) : Host.Outcome State Fault Refusal :=
  .next (s.setFb darkRaster).advance

/-- The state after drawing the rows: the display, then VF, then `PC + 2` (R192). -/
def drawSprite (s : State) (x y : Reg) (rows : List Byte) : State :=
  let drawn := drawRows s.cfg (s.reg x) (s.reg y) 0 rows (s.fb, false)
  ((s.setFb drawn.1).setFlag (collisionFlag drawn.2)).advance

/-- DXYN `DRW Vx, Vy, nibble` (R192). -/
def execDrw (x y : Reg) (n : Count) (s : State) : Host.Outcome State Fault Refusal :=
  finish s ((memRead s s.i.toNat n.val).map (drawSprite s x y))

end Sys2Proof.Machine
end

