-- ==== Sys2Proof/Machine/Index.lean ====
section
/-! DEFINITION. Memory and index-register instructions (spec/44_memory_index.md). -/

namespace Sys2Proof.Machine

/-- ANNN `LD I, addr` (R170). -/
def execLdI (nnn : Addr) (s : State) : Host.Outcome State Fault Refusal :=
  .next (s.setI (zext16 nnn)).advance

/-- FX1E `ADD I, Vx`: modulo 2^16, VF not written (R171). -/
def execAddIVx (x : Reg) (s : State) : Host.Outcome State Fault Refusal :=
  .next (s.setI (BitVec.ofNat 16 (s.i.toNat + (s.reg x).toNat))).advance

/-- FX55 `LD [I], Vx` (R172). -/
def execLdMemVx (x : Reg) (s : State) : Host.Outcome State Fault Refusal :=
  finish s ((memWrite s s.i.toNat (regBlock s x)).map fun t => (t.stepIndex x).advance)

/-- FX65 `LD Vx, [I]` (R173). -/
def execLdVxMem (x : Reg) (s : State) : Host.Outcome State Fault Refusal :=
  finish s ((memRead s s.i.toNat (x.val + 1)).map fun bs => ((s.setBlock bs).stepIndex x).advance)

/-- FX33 `LD B, Vx` (R174). -/
def execLdBVx (x : Reg) (s : State) : Host.Outcome State Fault Refusal :=
  finish s ((memWrite s s.i.toNat (bcdDigits (s.reg x))).map fun t => t.advance)

/-- FX29 `LD F, Vx` (R175). -/
def execLdFVx (x : Reg) (s : State) : Host.Outcome State Fault Refusal :=
  finish s ((fontDigit s.cfg (s.reg x)).map fun d => (s.setI (glyphAddress s.cfg d)).advance)

end Sys2Proof.Machine
end

