-- ==== Sys2Proof/Machine/Input.lean ====
section
/-! DEFINITION. Input instructions (spec/47_input.md). -/

namespace Sys2Proof.Machine

/-- EX9E `SKP Vx` (R221). -/
def execSkp (x : Reg) (s : State) : Host.Outcome State Fault Refusal :=
  finish s ((keyIndex s.cfg (s.reg x)).map fun k => s.skipIf (s.keyDown k))

/-- EXA1 `SKNP Vx` (R222). -/
def execSknp (x : Reg) (s : State) : Host.Outcome State Fault Refusal :=
  finish s ((keyIndex s.cfg (s.reg x)).map fun k => s.skipIf (!s.keyDown k))

/-- FX0A `LD Vx, K`, the issue; the KEY transaction completes it (R223, spec/60_exceptions.md R243). -/
def execLdVxK (x : Reg) (s : State) : Host.Outcome State Fault Refusal :=
  match s.cfg.keywaitPc with
  | .atIssue   => .next (s.setWait (some x)).advance
  | .atResolve => .next (s.setWait (some x))

end Sys2Proof.Machine
end

