-- ==== Sys2Proof/Machine/Move.lean ====
section
/-! DEFINITION. Immediate and move instructions (spec/41_immediate_move.md). -/

namespace Sys2Proof.Machine

/-- 6XNN `LD Vx, byte` (R120). -/
def execLdImm (x : Reg) (nn : Byte) (s : State) : Host.Outcome State Fault Refusal :=
  .next (s.setReg x nn).advance

/-- 8XY0 `LD Vx, Vy` (R121). -/
def execLdReg (x y : Reg) (s : State) : Host.Outcome State Fault Refusal :=
  .next (s.setReg x (s.reg y)).advance

end Sys2Proof.Machine
end

