-- ==== Sys2Proof/Machine/Timers.lean ====
section
/-! DEFINITION. Timer and random instructions (spec/46_timers_random.md). -/

namespace Sys2Proof.Machine

/-- FX07 `LD Vx, DT` (R210). -/
def execLdVxDt (x : Reg) (s : State) : Host.Outcome State Fault Refusal :=
  .next (s.setReg x s.dt).advance

/-- FX15 `LD DT, Vx` (R211). -/
def execLdDtVx (x : Reg) (s : State) : Host.Outcome State Fault Refusal :=
  .next (s.setDt (s.reg x)).advance

/-- FX18 `LD ST, Vx` (R212). -/
def execLdStVx (x : Reg) (s : State) : Host.Outcome State Fault Refusal :=
  .next (s.setSt (s.reg x)).advance

/-- CXNN `RND Vx, byte`: the draw is the free value `Config.randByte` (R213; log 2). -/
def execRnd (x : Reg) (nn : Byte) (s : State) : Host.Outcome State Fault Refusal :=
  .next ((s.setReg x (Config.randByte s.draws &&& nn)).countDraw).advance

end Sys2Proof.Machine
end

