-- ==== Sys2Proof/Machine/Step.lean ====
section
/-! DEFINITION. The STEP transaction (spec/40_pipeline.md R100). Fetching, decoding, the meanings and
taking an error stand in files of their own; STEP only calls them. -/

namespace Sys2Proof.Machine

/-- Execute what a word decoded to (spec/40_pipeline.md R102, spec/30_encoding.md R85, R86). -/
def execDecoded (d : Decoded) (s : State) : Host.Outcome State Fault Refusal :=
  match d with
  | .instr i   => exec i s
  | .sysNoOp _ => execSysNoOp s
  | .unknown w => .next (s.raise (.unknownOpcode w))

/-- STEP (R100): nothing in the halted state (R105) and nothing during a key-wait (R104); else fetch,
decode and execute one instruction, an error latching `Halt` and writing nothing else (R231). The
result STEP returns is read from the state after it: `Err(e)` where `Halt` is `e`, else `Ok`
(`Machine/Transactions.lean`). -/
def step (s : State) : Host.Outcome State Fault Refusal :=
  match s.halt, s.wait with
  | some _, _      => .next s
  | none, some _   => .next s
  | none, none =>
    match fetch s with
    | .error e => .next (s.raise e)
    | .ok w    => execDecoded (decodeUnder s.cfg.sys w) s

/-- `s` with the instruction word `w` (its low `nbits` bits, the rest zero) stored where `step` fetches
its next instruction, and Running: a halted or waiting block would not fetch (log 6). -/
def State.withFetchWord (s : State) (nbits w : Nat) : State :=
  ((s.setHalt none).setWait none).placeWord (BitVec.ofNat 16 (w % 2 ^ nbits))

end Sys2Proof.Machine
end

