-- ==== Sys2Proof/Machine/Transactions.lean ====
section
/-! DEFINITION. The host's seven transactions (spec/00_scope.md R5) and their results. STEP is
`Machine.step`; the host's order of transactions is an input, a list (log 4). -/

namespace Sys2Proof.Machine

/-- CONSTRUCT and `Reset()`: every field at its reset value (spec/70_reset_and_hazards.md R260, R261).
The parameters stay, and so does the model's count of draws (log 2). -/
def construct (s : State) : State := State.resetFor s.cfg s.draws

/-- Bytes installed from the address `a` up, verbatim, with no reserved-region check (R262). -/
def installBytes (base : Nat) : Memory → Nat → List Byte → Memory
  | m, _, [] => m
  | m, a, b :: bs => installBytes base (memPut base m a b) (a + 1) bs

/-- LOAD (R262): reset first, then the size check, then the bytes from 0x200. -/
def load (bytes : List Byte) (s : State) : State × Except LoadError Unit :=
  if programFits bytes then
    ((construct s).setMem (installBytes s.fontBase [] programBase bytes), .ok ())
  else (construct s, .error (.programTooLarge bytes.length))

/-- A timer after one tick: one less, unless it is zero (spec/60_exceptions.md R240). -/
def countDown (b : Byte) : Byte := if 0 < b.toNat then b - 1 else b

/-- TICK (spec/60_exceptions.md R240), in every interpreter state. -/
def tick (s : State) : State := (s.setDt (countDown s.dt)).setSt (countDown s.st)

/-- The resolution of a key-wait for register `r` by key `k` (spec/60_exceptions.md R243). -/
def resolveWait (k : KeyNo) (r : Reg) (s : State) : State :=
  let t := (s.setReg r (BitVec.ofNat 8 k.val)).setWait none
  match s.cfg.keywaitPc with
  | .atResolve => t.advance
  | .atIssue   => t

/-- KEY(k, pressed) (spec/60_exceptions.md R243): the latch, then, for a press during a key-wait, its
resolution. -/
def keyEvent (k : KeyNo) (pressed : Bool) (s : State) : State :=
  let t := s.setKey k pressed
  match pressed, s.wait with
  | true, some r => resolveWait k r t
  | _, _         => t

/-- SNAPSHOT (spec/45_display.md R195): the framebuffer, and no change of state. -/
def snapshot (s : State) : Raster := s.fb

/-- SOUND (spec/60_exceptions.md R242): `ST /= 0`, and no change of state. -/
def soundActive (s : State) : Bool := s.st != 0x00

/-- A host transaction (spec/00_scope.md R5). -/
inductive Transaction where
  | construct
  | load (bytes : List Byte)
  | step
  | tick
  | key (k : KeyNo) (pressed : Bool)
  | snapshot
  | sound
deriving DecidableEq, Repr

/-- The result of a transaction (spec/00_scope.md R5). -/
inductive Response where
  /-- The result `none` of CONSTRUCT, TICK and KEY. -/
  | done
  /-- `Ok`, of LOAD and STEP. -/
  | ok
  /-- `Err(e)` of a STEP. -/
  | cpuError (e : CpuError)
  /-- `Err(e)` of a LOAD. -/
  | loadError (e : LoadError)
  /-- The grid of a SNAPSHOT. -/
  | grid (fb : Raster)
  /-- The result of SOUND. -/
  | sound (active : Bool)
deriving DecidableEq, Repr

/-- What STEP returns: `Err(e)` where the state after it is halted by `e`, else `Ok`
(spec/40_pipeline.md R100, R105; spec/60_exceptions.md R231). -/
def stepResponse (after : State) : Response :=
  match after.halt with
  | none   => .ok
  | some e => .cpuError e

/-- What LOAD returns (spec/70_reset_and_hazards.md R262). -/
def loadResponse : Except LoadError Unit → Response
  | .ok _    => .ok
  | .error e => .loadError e

/-- Perform one transaction: the state after it, and its result. -/
def transact (t : Transaction) (s : State) : Host.Outcome (State × Response) Fault Refusal :=
  match t with
  | .construct  => .next (construct s, .done)
  | .load bytes => .next ((load bytes s).1, loadResponse (load bytes s).2)
  | .step =>
    match step s with
    | .next s'   => .next (s', stepResponse s')
    | .fault r   => .fault r
    | .refused r => .refused r
  | .tick       => .next (tick s, .done)
  | .key k p    => .next (keyEvent k p s, .done)
  | .snapshot   => .next (s, .grid (snapshot s))
  | .sound      => .next (s, .sound (soundActive s))

/-- The state after a list of transactions, in the host's order (spec/00_scope.md R5). -/
def runTransactions : List Transaction → State → Host.Outcome State Fault Refusal
  | [], s => .next s
  | t :: ts, s =>
    match transact t s with
    | .next p    => runTransactions ts p.1
    | .fault r   => .fault r
    | .refused r => .refused r

end Sys2Proof.Machine
end

