-- ==== Sys2Proof/Safety.lean ====
section
/-! DEFINITION. What the claims call a safe state and a run: the invariant of the block, the interpreter
states of spec/40_pipeline.md R107, and the states a host can reach (spec/60_exceptions.md R248). -/

namespace Sys2Proof.Machine

/-- The interpreter's states (spec/40_pipeline.md R107), functions of `Wait` and `Halt` (spec/10_state.md
R31, R32). -/
inductive Interpreter where
  | running
  | waitingForKey (r : Reg)
  | halted (e : CpuError)
deriving DecidableEq, Repr

/-- The interpreter state of a machine state. -/
def State.interpreter (s : State) : Interpreter :=
  match s.halt, s.wait with
  | some e, _    => .halted e
  | none, some r => .waitingForKey r
  | none, none   => .running

/-- The invariant of the block. -/
structure State.Inv (s : State) : Prop where
  /-- The font lies in the reserved region (spec/00_scope.md R8). -/
  fontFits : s.cfg.wf = true
  /-- Memory is in its canonical form, every listed address in the address space (spec/20_memory.md R50). -/
  memCanonical : Memory.wf s.fontBase s.mem = true
  /-- "depth never exceeds 16" (spec/10_state.md R26). -/
  depth : s.stack.length ≤ 16
  /-- "`Halt /= none` and `Wait /= none` never hold together" (spec/10_state.md R32). -/
  haltOrWait : s.halt = none ∨ s.wait = none
  /-- Under `P_RESERVED_WRITE = Fault` nothing below 0x200 differs from its reset contents, the font
  among them (spec/20_memory.md R58). -/
  reservedKept : s.cfg.reservedWrite = .fault → ∀ c ∈ s.mem, programBase ≤ c.1

/-- The states a host can bring the block to: CONSTRUCT with parameters `c`, then any transactions in
any order (spec/60_exceptions.md R248). -/
inductive Reachable (c : Config) : State → Prop where
  | constructed (draws : Nat) : Reachable c (State.resetFor c draws)
  | transacted {s s' : State} {r : Response} (t : Transaction) :
      Reachable c s → transact t s = .next (s', r) → Reachable c s'

/-! ## What an instruction may change -/

/-- One separately named piece of the state. -/
inductive Part where
  | reg (x : Reg)
  | index
  | pc
  | stack
  | pixel (x : Fin 64) (y : Fin 32)
  | delayTimer
  | soundTimer
  | key (k : KeyNo)
  | wait
  | halt
  | byte (a : Nat)
  | draws
  | params
deriving DecidableEq, Repr

/-- The piece has the same value in both states; a byte of memory is compared by reading it. -/
def Part.Same (s t : State) : Part → Prop
  | .reg x      => t.reg x = s.reg x
  | .index      => t.i = s.i
  | .pc         => t.pc = s.pc
  | .stack      => t.stack = s.stack
  | .pixel x y  => pixelAt t.fb x y = pixelAt s.fb x y
  | .delayTimer => t.dt = s.dt
  | .soundTimer => t.st = s.st
  | .key k      => t.keyDown k = s.keyDown k
  | .wait       => t.wait = s.wait
  | .halt       => t.halt = s.halt
  | .byte a     => t.byteAt a = s.byteAt a
  | .draws      => t.draws = s.draws
  | .params     => t.cfg = s.cfg

/-- FRAME: every piece of the state but those listed is unchanged from `s` to `t`. -/
def UnchangedBut (changed : List Part) (s t : State) : Prop := ∀ p, p ∉ changed → p.Same s t

/-- Every pixel of the display. -/
def everyPixel : List Part :=
  (List.finRange 64).flatMap fun x => (List.finRange 32).map fun y => .pixel x y

/-- The instruction latches the error `e` and changes nothing else (spec/60_exceptions.md R231). -/
def Latches (i : Instr) (s : State) (e : CpuError) : Prop :=
  ∃ t, exec i s = .next t ∧ t.halt = some e ∧ UnchangedBut [.halt] s t

/-- STEP executes the instruction `i` in the state `s`: the block is Running, and the word it fetches
decodes to `i` (spec/40_pipeline.md R100). -/
def Executes (s : State) (i : Instr) : Prop :=
  s.interpreter = .running ∧ ∃ w, fetch s = .ok w ∧ decode w = some i

/-! ## Addresses an instruction may use -/

/-- A program may store a byte at the address `a` (spec/20_memory.md R52, R54). -/
def Storable (c : Config) (a : Nat) : Prop :=
  ∃ r, resolve c a = .ok r ∧ (r < 0x200 → c.reservedWrite = .allow)

/-- A program may read a byte at the address `a` (spec/20_memory.md R52, R53). -/
def Readable (c : Config) (a : Nat) : Prop := ∃ r, resolve c a = .ok r

/-- The addresses of memory that the `n` bytes from `a` up resolve to, by the function the meanings
resolve them with. -/
def resolvedBytes (c : Config) (a n : Nat) : List Nat :=
  (List.range n).filterMap fun k => (resolve c (a + k)).toOption

/-! ## Sprites -/

/-- The pixel of sprite row `i` and column `j` lands on `(px, py)` (spec/45_display.md R191), for an
origin `(x0, y0)`. -/
def Lands (c : Config) (x0 y0 i j : Nat) (px : Fin 64) (py : Fin 32) : Prop :=
  match c.spriteEdge with
  | .clip => px.val = x0 % 64 + j ∧ py.val = y0 % 32 + i
  | .wrap => px.val = (x0 + j) % 64 ∧ py.val = (y0 + i) % 32

/-- The sprite of `n` rows that DXYN draws from the state `s` has a set pixel that lands on `(px, py)`
(spec/45_display.md R191, R192). -/
def SpriteCovers (s : State) (x y : Reg) (n : Nat) (px : Fin 64) (py : Fin 32) : Prop :=
  ∃ i j r, i < n ∧ j < 8 ∧ resolve s.cfg (s.i.toNat + i) = .ok r ∧
    (s.byteAt r).getLsbD (7 - j) = true ∧ Lands s.cfg (s.reg x).toNat (s.reg y).toNat i j px py

end Sys2Proof.Machine
end

