-- ==== Sys2Proof/Certificates/Slice0/Obligations.lean ====
section
/-! DEFINITION. The statements for the provers. Each docstring names the rules of spec/ it formalises.
Where a rule marks a clause as the spec's own decision (D<n> of spec/92_eei_decisions.md), as derived, or
as general knowledge, the docstring says so. Every statement about an instruction holds for every value of
every parameter (`s.cfg`). The words written out in it are general knowledge the spec supplies (I-G1, D1;
log 11); where VF is both destination and flag, that the flag is written last is also its decision D15. -/

open Sys2Proof Sys2Proof.Machine

/-! ## Decoding and encoding -/

/-- R83, R84, R88: decoding an instruction's bytes gives it back, with the bytes after it. The patterns are
general knowledge the spec supplies (I-G1, D1; log 11). -/
def Obligations.DecodingEncodedBytesGivesTheInstruction : Prop :=
  ∀ (i : Instr) (rest : List Byte), i.wf = true ∧ decodeBytes (encodeBytes i ++ rest) = .ok (i, rest)

/-- R83, R84: a word that decodes to an instruction is that instruction's encoding. -/
def Obligations.EncodingDecodedWordGivesTheWord : Prop :=
  ∀ (w : Word) (i : Instr), decode w = some i → encode i = w

/-- R83: words written out from the table's patterns, one or more a family. -/
def Obligations.WrittenOutWordsDecode : Prop :=
  decode 0x00E0#16 = some .cls ∧ decode 0x1ABC#16 = some (.jp 0xABC#12) ∧
  decode 0x6C42#16 = some (.ldImm 0xC 0x42#8) ∧ decode 0x8AB4#16 = some (.addReg 0xA 0xB) ∧
  decode 0xB300#16 = some (.jpV0 0x300#12) ∧ decode 0xC40F#16 = some (.rnd 4 0x0F#8) ∧
  decode 0xD125#16 = some (.drw 1 2 5) ∧ decode 0xE29E#16 = some (.skp 2) ∧
  decode 0xF30A#16 = some (.ldVxK 3) ∧ decode 0xF765#16 = some (.ldVxMem 7)

/-- R85 (the strict decoding of fixed nibbles is the spec's decision D2; log 12): the words that match no
row are exactly those R85 lists. -/
def Obligations.WordsOfNoRowAreThoseListed : Prop :=
  ∀ w : Word, decode w = none ↔
    (w.toNat / 0x1000 = 0x0 ∧ w.toNat ≠ 0x00E0 ∧ w.toNat ≠ 0x00EE) ∨
    ((w.toNat / 0x1000 = 0x5 ∨ w.toNat / 0x1000 = 0x9) ∧ w.toNat % 0x10 ≠ 0) ∨
    (w.toNat / 0x1000 = 0x8 ∧ w.toNat % 0x10 ∈ [0x8, 0x9, 0xA, 0xB, 0xC, 0xD, 0xF]) ∨
    (w.toNat / 0x1000 = 0xE ∧ w.toNat % 0x100 ∉ [0x9E, 0xA1]) ∨
    (w.toNat / 0x1000 = 0xF ∧
      w.toNat % 0x100 ∉ [0x07, 0x0A, 0x15, 0x18, 0x1E, 0x29, 0x33, 0x55, 0x65])

/-- R84 (the spec derives it from R83): no two rows of the opcode table accept the same word; a word decodes
to an instruction of the one row that accepts it, and to nothing where no row does. -/
def Obligations.DecodingFindsTheOneAcceptingRow : Prop :=
  (∀ (w : Word), ∀ r ∈ opcodeRows, ∀ r' ∈ opcodeRows, r.accepts w = true → r'.accepts w = true → r = r') ∧
  (∀ (w : Word) (i : Instr), decode w = some i →
    ∃ r ∈ opcodeRows, r.mnemonic = i.mnemonic ∧ r.accepts w = true) ∧
  (∀ w : Word, decode w = none → ∀ r ∈ opcodeRows, r.accepts w = false)

/-! ## STEP -/

/-- R100, R101, R102: where the block is Running, the alignment check passes, and the two bytes that `PC`
and `PC + 1` resolve to decode to an instruction, STEP is `exec` of that instruction in that state; nothing
is added around it. -/
def Obligations.StepExecutesTheDecodedInstruction : Prop :=
  ∀ (s : State) (i : Instr) (a b : Nat), s.halt = none → s.wait = none →
    (s.pc.toNat % 2 = 1 → s.cfg.oddPc = .fetch) →
    resolve s.cfg s.pc.toNat = .ok a → resolve s.cfg (s.pc.toNat + 1) = .ok b →
    decodeBytes [s.byteAt a, s.byteAt b] = .ok (i, []) → step s = exec i s

/-- R105 (what a STEP after an error returns is the spec's decision D23; log 12): in the halted state STEP
returns the latched error and changes nothing. -/
def Obligations.HaltedStepReturnsTheErrorAgain : Prop :=
  ∀ (s : State) (e : CpuError), s.halt = some e → transact .step s = .next (s, .cpuError e)

/-- R104: during a key-wait STEP returns `Ok` and changes nothing; and under `P_KEYWAIT_PC = AtResolve` the
FX0A that began the wait left `PC` on itself. -/
def Obligations.WaitingStepIsANoOp : Prop :=
  (∀ (s : State) (r : Reg), s.halt = none → s.wait = some r → transact .step s = .next (s, .ok)) ∧
  (∀ (s t : State) (x : Reg), s.cfg.keywaitPc = .atResolve → exec (.ldVxK x) s = .next t →
    t.wait = some x ∧ t.pc = s.pc)

/-- R101, and R232 (1) and (2) for the order (the spec's decision D29; log 12): an odd `PC` under
`P_ODD_PC = Fault` comes first, then an address above 0xFFF under `P_ADDR = Fault`, `PC` before `PC + 1`;
else the word has the byte at `PC` in bits 15 to 8. -/
def Obligations.FetchReadsTheWordOrReportsTheFirstError : Prop :=
  ∀ s : State,
    (s.pc.toNat % 2 = 1 → s.cfg.oddPc = .fault → fetch s = .error (.misalignedFetch s.pc)) ∧
    ((s.pc.toNat % 2 = 1 → s.cfg.oddPc = .fetch) →
      (s.cfg.addr = .fault → 0xFFF < s.pc.toNat → fetch s = .error (.addressOutOfRange s.pc.toNat)) ∧
      (s.cfg.addr = .fault → s.pc.toNat = 0xFFF → fetch s = .error (.addressOutOfRange 0x1000)) ∧
      (∀ a b, resolve s.cfg s.pc.toNat = .ok a → resolve s.cfg (s.pc.toNat + 1) = .ok b →
        ∃ w, fetch s = .ok w ∧ w.toNat = (s.byteAt a).toNat * 0x100 + (s.byteAt b).toNat))

/-- R85, R86, R102: a Running block that fetches a word of no row latches `UnknownOpcode(w)` and changes
nothing else, but for a 0NNN word under `P_SYS = NoOp`, which changes nothing but `PC`. -/
def Obligations.WordOfNoRowHaltsOrOnlyAdvances : Prop :=
  ∀ (s : State) (w : Word), s.halt = none → s.wait = none → fetch s = .ok w → decode w = none →
    ∃ t, step s = .next t ∧
      (s.cfg.sys = .noOp → w.toNat / 0x1000 = 0 →
        t.pc.toNat = (s.pc.toNat + 2) % 0x10000 ∧ UnchangedBut [.pc] s t) ∧
      (s.cfg.sys = .unknown ∨ w.toNat / 0x1000 ≠ 0 →
        t.halt = some (.unknownOpcode w) ∧ UnchangedBut [.halt] s t)

/-- R231 (atomicity and the latch are the spec's decisions D22, D23; log 12): a STEP that raises an error
latches it, returns it, and leaves every other piece of the state as it was; the next STEP returns it again
and changes nothing. -/
def Obligations.FailingStepOnlyLatchesItsError : Prop :=
  ∀ (s t : State) (e : CpuError), s.halt = none → step s = .next t → t.halt = some e →
    UnchangedBut [.halt] s t ∧ transact .step s = .next (t, .cpuError e) ∧
      transact .step t = .next (t, .cpuError e)

/-- R6: every transaction completes at once, in every state; the only suspension is a key-wait, in which a
STEP completes and changes nothing. -/
def Obligations.NoTransactionBlocks : Prop :=
  (∀ (tr : Transaction) (s : State), ∃ s' r, transact tr s = .next (s', r)) ∧
  (∀ (s : State) (x : Reg), s.interpreter = .waitingForKey x → step s = .next s) ∧
  (∀ (i : Instr) (s : State), ∃ t, exec i s = .next t)

/-! ## Invariants -/

/-- R8, R26, R32, R50, R58, and the canonical form of memory (the model's, log 5): STEP keeps the
invariant. -/
def Obligations.StepKeepsTheInvariant : Prop :=
  ∀ s t : State, s.Inv → step s = .next t → t.Inv

/-- The same of all seven transactions: in every state that meets the invariant, each leaves one. That
CONSTRUCT and LOAD keep the parameters, and so the font base, is the model's choice (log 1, 15), as is the
canonical form (log 5). -/
def Obligations.TransactionsKeepTheInvariant : Prop :=
  ∀ (tr : Transaction) (s s' : State) (r : Response), s.Inv → transact tr s = .next (s', r) → s'.Inv

/-- R35, R260: the reset state meets the invariant, for every font base that fits. The canonical form is the
model's (log 5), and so is the choice of parameters in `State.reset` (log 1). -/
def Obligations.ResetMeetsTheInvariant : Prop :=
  State.reset.Inv ∧ ∀ (c : Config) (draws : Nat), c.wf = true → (State.resetFor c draws).Inv

/-- R8, R248: whatever transactions the host issues, in any order, the block meets the invariant and its
parameters stay as constructed. That the parameters stay, through a CONSTRUCT transaction too, is the model's
choice (log 15, with log 1), and so is the canonical form that the invariant asks of memory (log 5). -/
def Obligations.ReachableStatesMeetTheInvariant : Prop :=
  ∀ (c : Config) (s : State), c.wf = true → Reachable c s → s.Inv ∧ s.cfg = c

/-- R58 (the spec derives it from R54 and R261): under `P_RESERVED_WRITE = Fault` no STEP changes a byte of
the reserved region; so in a state that meets the invariant the font table still reads as R57 gives it. -/
def Obligations.StepNeverChangesTheReservedRegion : Prop :=
  ∀ s t : State, s.cfg.reservedWrite = .fault → step s = .next t →
    (∀ a, a < 0x200 → t.byteAt a = s.byteAt a) ∧
    (s.Inv → ∀ k, k < 80 → t.byteAt (s.fontBase + k) = fontTable.getD k 0)

/-! ## Who may write what -/

/-- R28: only 00E0 and DXYN, executed by a STEP, and a reset write the display. -/
def Obligations.OnlyClsAndDrwWriteTheDisplay : Prop :=
  ∀ (tr : Transaction) (s s' : State) (r : Response), transact tr s = .next (s', r) → s'.fb ≠ s.fb →
    tr = .construct ∨ (∃ bs, tr = .load bs) ∨
      (tr = .step ∧ (Executes s .cls ∨ ∃ x y n, Executes s (.drw x y n)))

/-- R26: only 2NNN and 00EE, executed by a STEP, and a reset change the call stack. -/
def Obligations.OnlyCallAndRetChangeTheStack : Prop :=
  ∀ (tr : Transaction) (s s' : State) (r : Response), transact tr s = .next (s', r) → s'.stack ≠ s.stack →
    tr = .construct ∨ (∃ bs, tr = .load bs) ∨
      (tr = .step ∧ (Executes s .ret ∨ ∃ nnn, Executes s (.call nnn)))

/-- R29: only FX15, executed by a STEP, TICK and a reset write `DT`; FX18 in place of FX15 for `ST`. -/
def Obligations.OnlyTheirInstructionAndTickWriteTheTimers : Prop :=
  ∀ (tr : Transaction) (s s' : State) (r : Response), transact tr s = .next (s', r) →
    (s'.dt ≠ s.dt → tr = .construct ∨ (∃ bs, tr = .load bs) ∨ tr = .tick ∨
      (tr = .step ∧ ∃ x, Executes s (.ldDtVx x))) ∧
    (s'.st ≠ s.st → tr = .construct ∨ (∃ bs, tr = .load bs) ∨ tr = .tick ∨
      (tr = .step ∧ ∃ x, Executes s (.ldStVx x)))

/-- R30: only KEY and a reset write the key latch. -/
def Obligations.OnlyKeyEventsWriteTheLatch : Prop :=
  ∀ (tr : Transaction) (s s' : State) (r : Response), transact tr s = .next (s', r) → s'.key ≠ s.key →
    tr = .construct ∨ (∃ bs, tr = .load bs) ∨ ∃ k p, tr = .key k p

/-- R107, R31, R32 (Halted is the spec's name, D23): every change of the interpreter's state is one of the
table's rows. -/
def Obligations.InterpreterChangesStateOnlyByTheTable : Prop :=
  ∀ (tr : Transaction) (s s' : State) (r : Response), transact tr s = .next (s', r) →
    s'.interpreter ≠ s.interpreter →
    ((tr = .construct ∨ ∃ bs, tr = .load bs) ∧ s'.interpreter = .running) ∨
    (tr = .step ∧ s.interpreter = .running ∧
      ((∃ x, Executes s (.ldVxK x) ∧ s'.interpreter = .waitingForKey x) ∨
       ∃ e, s'.interpreter = .halted e ∧ r = .cpuError e)) ∨
    (∃ x k, tr = .key k true ∧ s.interpreter = .waitingForKey x ∧ s'.interpreter = .running ∧
      (s'.reg x).toNat = k.val)

/-! ## Memory -/

/-- R52, R53, R54: the three policies for an address above 0xFFF, and an access of several bytes resolves each
of them on its own: a read gives the bytes at those addresses in order, whatever region they lie in; a write
stores byte `k` where `a + k` resolves to. That a read's error is that of its first byte that fails is R232, the
spec's decision D29, and that the last write to an address stands is R103, its decision D15 (log 12); the
canonical form assumed of memory is the model's (log 5). -/
def Obligations.ResolveFollowsTheAddressPolicy : Prop :=
  (∀ (c : Config) (a : Nat),
    (a ≤ 0xFFF → resolve c a = .ok a) ∧
    (0xFFF < a → c.addr = .wrap → resolve c a = .ok (a % 4096)) ∧
    (0xFFF < a → c.addr = .clamp → resolve c a = .ok 0xFFF) ∧
    (0xFFF < a → c.addr = .fault → resolve c a = .error (.addressOutOfRange a))) ∧
  (∀ (s : State) (a n : Nat) (r : Nat → Nat), (∀ k < n, resolve s.cfg (a + k) = .ok (r k)) →
    memRead s a n = .ok ((List.range n).map fun k => s.byteAt (r k))) ∧
  (∀ (s : State) (a n k : Nat), k < n → (∀ j < k, Readable s.cfg (a + j)) → s.cfg.addr = .fault →
    0xFFF < a + k → memRead s a n = .error (.addressOutOfRange (a + k))) ∧
  (∀ (s t : State) (a : Nat) (bs : List Byte), Memory.wf s.fontBase s.mem = true → memWrite s a bs = .ok t →
    ∀ k (h : k < bs.length), ∃ r, resolve s.cfg (a + k) = .ok r ∧
      ((∀ j, k < j → j < bs.length → resolve s.cfg (a + j) ≠ .ok r) → t.byteAt r = bs[k]))

/-- R53, R54, R61 (derived by the spec): bytes written by `MemWrite` are read back by `MemRead`, where no
two of them share an address (under `Clamp`, where none lies above 0xFFF). The canonical form assumed of memory
is the model's (log 5). -/
def Obligations.ReadingBackAWriteGivesItsBytes : Prop :=
  ∀ (s t : State) (a : Nat) (bs : List Byte), Memory.wf s.fontBase s.mem = true → bs.length ≤ 4096 →
    (s.cfg.addr = .clamp → a + bs.length ≤ 0x1000) → memWrite s a bs = .ok t →
    memRead t a bs.length = .ok bs

/-- R54, and R232 (4) for the order (the spec's decision D29; log 12): `MemWrite` checks every byte's resolved
address before it writes any; the first that fails, its range before its reserved check, is the error. Where
none fails it succeeds. -/
def Obligations.WriteChecksEveryAddressFirst : Prop :=
  ∀ (s : State) (a : Nat) (bs : List Byte),
    ((∀ k < bs.length, Storable s.cfg (a + k)) → ∃ t, memWrite s a bs = .ok t ∧
      UnchangedBut ((resolvedBytes s.cfg a bs.length).map .byte) s t) ∧
    (∀ k < bs.length, (∀ j < k, Storable s.cfg (a + j)) →
      (s.cfg.addr = .fault → 0xFFF < a + k → memWrite s a bs = .error (.addressOutOfRange (a + k))) ∧
      (∀ r, resolve s.cfg (a + k) = .ok r → r < 0x200 → s.cfg.reservedWrite = .fault →
        memWrite s a bs = .error (.reservedWrite r)))

/-- The model's canonical form of memory (log 5): two memories in it that read alike are equal. -/
def Obligations.CanonicalMemoriesThatReadAlikeAreEqual : Prop :=
  ∀ (base : Nat) (m m' : Memory), Memory.wf base m = true → Memory.wf base m' = true →
    (∀ a, memGet base m a = memGet base m' a) → m = m'

/-! ## Immediate and move instructions -/

/-- R120. -/
def Obligations.LoadImmediateWritesTheByte : Prop :=
  ∀ (x : Reg) (nn : Byte) (s : State),
    decode (BitVec.ofNat 16 (0x6000 + 0x100 * x.val + nn.toNat)) = some (.ldImm x nn) ∧
    ∃ t, exec (.ldImm x nn) s = .next t ∧ t.reg x = nn ∧ t.pc.toNat = (s.pc.toNat + 2) % 0x10000 ∧
      UnchangedBut [.reg x, .pc] s t

/-- R121. -/
def Obligations.LoadRegisterCopiesTheSource : Prop :=
  ∀ (x y : Reg) (s : State),
    decode (BitVec.ofNat 16 (0x8000 + 0x100 * x.val + 0x10 * y.val)) = some (.ldReg x y) ∧
    ∃ t, exec (.ldReg x y) s = .next t ∧ t.reg x = s.reg y ∧ t.pc.toNat = (s.pc.toNat + 2) % 0x10000 ∧
      UnchangedBut [.reg x, .pc] s t

/-! ## Arithmetic and logic instructions -/

/-- R131 (7XNN and its lack of a flag are the spec's decisions D1, D27; log 12). -/
def Obligations.AddImmediateWrapsAndSetsNoFlag : Prop :=
  ∀ (x : Reg) (nn : Byte) (s : State),
    decode (BitVec.ofNat 16 (0x7000 + 0x100 * x.val + nn.toNat)) = some (.addImm x nn) ∧
    ∃ t, exec (.addImm x nn) s = .next t ∧ (t.reg x).toNat = ((s.reg x).toNat + nn.toNat) % 256 ∧
      t.pc.toNat = (s.pc.toNat + 2) % 0x10000 ∧ UnchangedBut [.reg x, .pc] s t

/-- R132, R133, R134: the bitwise result, bit by bit; VF afterwards by `P_LOGIC_VF`, the VF write last. -/
def Obligations.LogicInstructionsCombineBitwise : Prop :=
  ∀ (x y : Reg) (s : State) (i : Instr) (f : Nat) (op : Bool → Bool → Bool),
    (i, f, op) ∈ [(Instr.orReg x y, 1, or), (Instr.andReg x y, 2, and), (Instr.xorReg x y, 3, xor)] →
    decode (BitVec.ofNat 16 (0x8000 + 0x100 * x.val + 0x10 * y.val + f)) = some i ∧
    ∃ t, exec i s = .next t ∧
      ((x = 15 → s.cfg.logicVf = .unchanged) →
        ∀ k < 8, (t.reg x).getLsbD k = op ((s.reg x).getLsbD k) ((s.reg y).getLsbD k)) ∧
      (s.cfg.logicVf = .reset → t.reg 15 = 0x00#8 ∧ UnchangedBut [.reg x, .reg 15, .pc] s t) ∧
      (s.cfg.logicVf = .unchanged → UnchangedBut [.reg x, .pc] s t) ∧
      t.pc.toNat = (s.pc.toNat + 2) % 0x10000

/-- R135: the sum modulo 256 and the carry; as VF is written last, it holds the carry when `X = 15`. -/
def Obligations.AddRegistersSetsTheCarry : Prop :=
  ∀ (x y : Reg) (s : State),
    decode (BitVec.ofNat 16 (0x8004 + 0x100 * x.val + 0x10 * y.val)) = some (.addReg x y) ∧
    ∃ t, exec (.addReg x y) s = .next t ∧
      (x ≠ 15 → (t.reg x).toNat = ((s.reg x).toNat + (s.reg y).toNat) % 256) ∧
      (t.reg 15).toNat = (if 255 < (s.reg x).toNat + (s.reg y).toNat then 1 else 0) ∧
      t.pc.toNat = (s.pc.toNat + 2) % 0x10000 ∧ UnchangedBut [.reg x, .reg 15, .pc] s t

/-- R136 and R137 (which operand is subtracted from which is the spec's decision D27; log 12): the
difference modulo 256, and VF 1 exactly when there is no borrow; VF is written last. -/
def Obligations.SubtractionsSetNoBorrow : Prop :=
  ∀ (x y : Reg) (s : State) (i : Instr) (f : Nat) (minuend subtrahend : Nat),
    (i, f, minuend, subtrahend) ∈ [(Instr.sub x y, 5, (s.reg x).toNat, (s.reg y).toNat),
      (Instr.subn x y, 7, (s.reg y).toNat, (s.reg x).toNat)] →
    decode (BitVec.ofNat 16 (0x8000 + 0x100 * x.val + 0x10 * y.val + f)) = some i ∧
    ∃ t, exec i s = .next t ∧
      (x ≠ 15 → (t.reg x).toNat = if subtrahend ≤ minuend then minuend - subtrahend
        else minuend + 256 - subtrahend) ∧
      (t.reg 15).toNat = (if subtrahend ≤ minuend then 1 else 0) ∧
      t.pc.toNat = (s.pc.toNat + 2) % 0x10000 ∧ UnchangedBut [.reg x, .reg 15, .pc] s t

/-- R138 and R139: the source by `P_SHIFT_SRC`, the shifted value, and VF the bit shifted out, written
last. -/
def Obligations.ShiftsSetTheBitShiftedOut : Prop :=
  ∀ (x y : Reg) (s : State) (src : Nat),
    src = (if s.cfg.shiftSrc = .vy then (s.reg y).toNat else (s.reg x).toNat) →
    (decode (BitVec.ofNat 16 (0x8006 + 0x100 * x.val + 0x10 * y.val)) = some (.shr x y) ∧
      ∃ t, exec (.shr x y) s = .next t ∧ (x ≠ 15 → (t.reg x).toNat = src / 2) ∧
        (t.reg 15).toNat = src % 2 ∧
        t.pc.toNat = (s.pc.toNat + 2) % 0x10000 ∧ UnchangedBut [.reg x, .reg 15, .pc] s t) ∧
    (decode (BitVec.ofNat 16 (0x800E + 0x100 * x.val + 0x10 * y.val)) = some (.shl x y) ∧
      ∃ t, exec (.shl x y) s = .next t ∧ (x ≠ 15 → (t.reg x).toNat = 2 * src % 256) ∧
        (t.reg 15).toNat = src / 128 ∧
        t.pc.toNat = (s.pc.toNat + 2) % 0x10000 ∧ UnchangedBut [.reg x, .reg 15, .pc] s t)

/-! ## Control-flow instructions -/

/-- R150: `PC` becomes the address; the jump itself checks nothing, and an odd target is a `MisalignedFetch`
at the next STEP under `P_ODD_PC = Fault`. -/
def Obligations.JumpSetsThePc : Prop :=
  ∀ (nnn : Addr) (s : State),
    decode (BitVec.ofNat 16 (0x1000 + nnn.toNat)) = some (.jp nnn) ∧
    ∃ t, exec (.jp nnn) s = .next t ∧ t.pc.toNat = nnn.toNat ∧ UnchangedBut [.pc] s t ∧
      (s.interpreter = .running → s.cfg.oddPc = .fault → nnn.toNat % 2 = 1 →
        ∃ u, step t = .next u ∧ u.halt = some (.misalignedFetch t.pc))

/-- R151 (the indexed jump and its use of V0 are the spec's decision D14; log 12). -/
def Obligations.IndexedJumpAddsV0 : Prop :=
  ∀ (nnn : Addr) (s : State),
    decode (BitVec.ofNat 16 (0xB000 + nnn.toNat)) = some (.jpV0 nnn) ∧
    ∃ t, exec (.jpV0 nnn) s = .next t ∧ t.pc.toNat = nnn.toNat + (s.reg 0).toNat ∧ UnchangedBut [.pc] s t

/-- R152, R27 (the pushed address is the spec's decision D20; log 12): below depth 16 the address after the
call is pushed and `PC` set; at depth 16 `StackOverflow(PC)`, and nothing else changes. -/
def Obligations.CallPushesTheReturnAddress : Prop :=
  ∀ (nnn : Addr) (s : State),
    decode (BitVec.ofNat 16 (0x2000 + nnn.toNat)) = some (.call nnn) ∧
    (s.stack.length < 16 → ∃ t v, exec (.call nnn) s = .next t ∧ t.stack = s.stack ++ [v] ∧
      v.toNat = (s.pc.toNat + 2) % 0x10000 ∧ t.pc.toNat = nnn.toNat ∧ UnchangedBut [.stack, .pc] s t) ∧
    (s.stack.length = 16 → Latches (.call nnn) s (.stackOverflow s.pc))

/-- R153: the top entry is popped into `PC`, with no further advance; on an empty stack
`StackUnderflow(PC)`, and nothing else changes. -/
def Obligations.ReturnPopsThePc : Prop :=
  decode 0x00EE#16 = some .ret ∧
  (∀ (s : State) (below : List Word) (v : Word), s.stack = below ++ [v] →
    ∃ t, exec .ret s = .next t ∧ t.stack = below ∧ t.pc = v ∧ UnchangedBut [.stack, .pc] s t) ∧
  (∀ s : State, s.stack = [] → Latches .ret s (.stackUnderflow s.pc))

/-- R154 and R155 (the skip distance and the inequality form are the spec's, D26, I-G9; log 12). -/
def Obligations.ImmediateSkipsCompare : Prop :=
  ∀ (x : Reg) (nn : Byte) (s : State),
    decode (BitVec.ofNat 16 (0x3000 + 0x100 * x.val + nn.toNat)) = some (.seImm x nn) ∧
    decode (BitVec.ofNat 16 (0x4000 + 0x100 * x.val + nn.toNat)) = some (.sneImm x nn) ∧
    (∃ t, exec (.seImm x nn) s = .next t ∧ UnchangedBut [.pc] s t ∧
      t.pc.toNat = (s.pc.toNat + if (s.reg x).toNat = nn.toNat then 4 else 2) % 0x10000) ∧
    (∃ t, exec (.sneImm x nn) s = .next t ∧ UnchangedBut [.pc] s t ∧
      t.pc.toNat = (s.pc.toNat + if (s.reg x).toNat = nn.toNat then 2 else 4) % 0x10000)

/-- R156 and R157 (the skip distance and the inequality form are the spec's, D26, I-G9; log 12). -/
def Obligations.RegisterSkipsCompare : Prop :=
  ∀ (x y : Reg) (s : State),
    decode (BitVec.ofNat 16 (0x5000 + 0x100 * x.val + 0x10 * y.val)) = some (.seReg x y) ∧
    decode (BitVec.ofNat 16 (0x9000 + 0x100 * x.val + 0x10 * y.val)) = some (.sneReg x y) ∧
    (∃ t, exec (.seReg x y) s = .next t ∧ UnchangedBut [.pc] s t ∧
      t.pc.toNat = (s.pc.toNat + if (s.reg x).toNat = (s.reg y).toNat then 4 else 2) % 0x10000) ∧
    (∃ t, exec (.sneReg x y) s = .next t ∧ UnchangedBut [.pc] s t ∧
      t.pc.toNat = (s.pc.toNat + if (s.reg x).toNat = (s.reg y).toNat then 2 else 4) % 0x10000)

/-! ## Memory and index-register instructions -/

/-- R170. -/
def Obligations.LoadIndexSetsI : Prop :=
  ∀ (nnn : Addr) (s : State),
    decode (BitVec.ofNat 16 (0xA000 + nnn.toNat)) = some (.ldI nnn) ∧
    ∃ t, exec (.ldI nnn) s = .next t ∧ t.i.toNat = nnn.toNat ∧ t.pc.toNat = (s.pc.toNat + 2) % 0x10000 ∧
      UnchangedBut [.index, .pc] s t

/-- R171 (the wrap modulo 2^16 and the untouched VF are the spec's decision D13; log 12). -/
def Obligations.AddIndexWrapsAndSetsNoFlag : Prop :=
  ∀ (x : Reg) (s : State),
    decode (BitVec.ofNat 16 (0xF01E + 0x100 * x.val)) = some (.addIVx x) ∧
    ∃ t, exec (.addIVx x) s = .next t ∧ t.i.toNat = (s.i.toNat + (s.reg x).toNat) % 0x10000 ∧
      t.pc.toNat = (s.pc.toNat + 2) % 0x10000 ∧ UnchangedBut [.index, .pc] s t

/-- R172, R54: where every byte may be stored, byte `k` of the block lands on the address `I + k` resolves
to (the last write to an address stands: R103, the spec's decision D15), `I` by `P_LDST_I` (D12), and no other
byte of memory changes; else the first byte that fails gives the error (R232, its decision D29; log 12), and
nothing else changes. The canonical form assumed of memory is the model's (log 5). -/
def Obligations.StoreBlockWritesTheRegisters : Prop :=
  ∀ (x : Reg) (s : State), Memory.wf s.fontBase s.mem = true →
    decode (BitVec.ofNat 16 (0xF055 + 0x100 * x.val)) = some (.ldMemVx x) ∧
    ((∀ k ≤ x.val, Storable s.cfg (s.i.toNat + k)) → ∃ t, exec (.ldMemVx x) s = .next t ∧
      (∀ (k : Reg) (r : Nat), k ≤ x → resolve s.cfg (s.i.toNat + k.val) = .ok r →
        (∀ j : Reg, k < j → j ≤ x → resolve s.cfg (s.i.toNat + j.val) ≠ .ok r) → t.byteAt r = s.reg k) ∧
      t.i.toNat = (if s.cfg.ldstI = .increment then (s.i.toNat + x.val + 1) % 0x10000 else s.i.toNat) ∧
      t.pc.toNat = (s.pc.toNat + 2) % 0x10000 ∧
      UnchangedBut ([.index, .pc] ++ (resolvedBytes s.cfg s.i.toNat (x.val + 1)).map .byte) s t) ∧
    (∀ k ≤ x.val, (∀ j < k, Storable s.cfg (s.i.toNat + j)) →
      (s.cfg.addr = .fault → 0xFFF < s.i.toNat + k →
        Latches (.ldMemVx x) s (.addressOutOfRange (s.i.toNat + k))) ∧
      (∀ r, resolve s.cfg (s.i.toNat + k) = .ok r → r < 0x200 → s.cfg.reservedWrite = .fault →
        Latches (.ldMemVx x) s (.reservedWrite r)))

/-- R173: where every byte may be read, `V[k]` takes the byte that `I + k` resolves to for each `k` up to
`X`, and `I` changes by `P_LDST_I` (the spec's decision D12); else the first byte that fails gives the error
(R232, its decision D29; log 12), and nothing else changes. -/
def Obligations.LoadBlockReadsTheRegisters : Prop :=
  ∀ (x : Reg) (s : State),
    decode (BitVec.ofNat 16 (0xF065 + 0x100 * x.val)) = some (.ldVxMem x) ∧
    ((∀ k ≤ x.val, Readable s.cfg (s.i.toNat + k)) → ∃ t, exec (.ldVxMem x) s = .next t ∧
      (∀ (k : Reg) (r : Nat), k ≤ x → resolve s.cfg (s.i.toNat + k.val) = .ok r → t.reg k = s.byteAt r) ∧
      t.i.toNat = (if s.cfg.ldstI = .increment then (s.i.toNat + x.val + 1) % 0x10000 else s.i.toNat) ∧
      t.pc.toNat = (s.pc.toNat + 2) % 0x10000 ∧
      UnchangedBut ([.index, .pc] ++ ((List.finRange 16).filter (· ≤ x)).map .reg) s t) ∧
    (∀ k ≤ x.val, (∀ j < k, Readable s.cfg (s.i.toNat + j)) → s.cfg.addr = .fault →
      0xFFF < s.i.toNat + k → Latches (.ldVxMem x) s (.addressOutOfRange (s.i.toNat + k)))

/-- R174, R54: the three decimal digits of `V[X]` at `I`, `I + 1`, `I + 2` (the last write to an address
stands: R103, the spec's decision D15), `I` unchanged; else the first byte that fails gives the error (R232, its
decision D29; log 12), and nothing else changes. The canonical form assumed of memory is the model's (log 5). -/
def Obligations.StoreDigitsWritesTheDecimalDigits : Prop :=
  ∀ (x : Reg) (s : State), Memory.wf s.fontBase s.mem = true →
    decode (BitVec.ofNat 16 (0xF033 + 0x100 * x.val)) = some (.ldBVx x) ∧
    ((∀ k < 3, Storable s.cfg (s.i.toNat + k)) → ∃ t, exec (.ldBVx x) s = .next t ∧
      (∀ k r, k < 3 → resolve s.cfg (s.i.toNat + k) = .ok r →
        (∀ j, k < j → j < 3 → resolve s.cfg (s.i.toNat + j) ≠ .ok r) →
        (t.byteAt r).toNat = (s.reg x).toNat / 10 ^ (2 - k) % 10) ∧
      t.pc.toNat = (s.pc.toNat + 2) % 0x10000 ∧
      UnchangedBut ([.pc] ++ (resolvedBytes s.cfg s.i.toNat 3).map .byte) s t) ∧
    (∀ k < 3, (∀ j < k, Storable s.cfg (s.i.toNat + j)) →
      (s.cfg.addr = .fault → 0xFFF < s.i.toNat + k →
        Latches (.ldBVx x) s (.addressOutOfRange (s.i.toNat + k))) ∧
      (∀ r, resolve s.cfg (s.i.toNat + k) = .ok r → r < 0x200 → s.cfg.reservedWrite = .fault →
        Latches (.ldBVx x) s (.reservedWrite r)))

/-- R175: `I` is the glyph's address; a digit above 15 is masked or is the error, by `P_FONT_DIGIT`. -/
def Obligations.LoadFontPointsAtTheGlyph : Prop :=
  ∀ (x : Reg) (s : State),
    decode (BitVec.ofNat 16 (0xF029 + 0x100 * x.val)) = some (.ldFVx x) ∧
    ((s.reg x).toNat ≤ 15 ∨ s.cfg.fontDigit = .mask → ∃ t, exec (.ldFVx x) s = .next t ∧
      t.i.toNat = s.cfg.fontBase.toNat + 5 * ((s.reg x).toNat % 16) ∧
      t.pc.toNat = (s.pc.toNat + 2) % 0x10000 ∧ UnchangedBut [.index, .pc] s t) ∧
    (15 < (s.reg x).toNat → s.cfg.fontDigit = .fault →
      Latches (.ldFVx x) s (.fontDigitOutOfRange (s.reg x)))

/-! ## Display instructions -/

/-- R190. -/
def Obligations.ClearTurnsEveryPixelOff : Prop :=
  decode 0x00E0#16 = some .cls ∧
  ∀ s : State, ∃ t, exec .cls s = .next t ∧ (∀ px py, pixelAt t.fb px py = false) ∧
    t.pc.toNat = (s.pc.toNat + 2) % 0x10000 ∧ UnchangedBut ([.pc] ++ everyPixel) s t

/-- R191, R192 (the bit order, N = 0 and the reduction of the origin are the spec's, D8, D9, I-G5, and that the
first byte that fails gives the error is R232, its decision D29; log 11, 12):
the row by row, column by column drawing flips exactly the pixels the sprite's set bits land on, and VF says
whether one of them was lit; under `P_ADDR = Fault` the first byte above 0xFFF is the error, and nothing
else changes. -/
def Obligations.DrawFlipsTheCoveredPixels : Prop :=
  ∀ (x y : Reg) (n : Count) (s : State),
    decode (BitVec.ofNat 16 (0xD000 + 0x100 * x.val + 0x10 * y.val + n.val)) = some (.drw x y n) ∧
    ((∀ k < n.val, Readable s.cfg (s.i.toNat + k)) → ∃ t, exec (.drw x y n) s = .next t ∧
      (∀ px py, SpriteCovers s x y n.val px py → pixelAt t.fb px py = !pixelAt s.fb px py) ∧
      (∀ px py, ¬ SpriteCovers s x y n.val px py → pixelAt t.fb px py = pixelAt s.fb px py) ∧
      ((∃ px py, SpriteCovers s x y n.val px py ∧ pixelAt s.fb px py = true) → t.reg 15 = 0x01#8) ∧
      ((¬ ∃ px py, SpriteCovers s x y n.val px py ∧ pixelAt s.fb px py = true) → t.reg 15 = 0x00#8) ∧
      t.pc.toNat = (s.pc.toNat + 2) % 0x10000 ∧ UnchangedBut ([.pc, .reg 15] ++ everyPixel) s t) ∧
    (∀ k < n.val, (∀ j < k, Readable s.cfg (s.i.toNat + j)) → s.cfg.addr = .fault →
      0xFFF < s.i.toNat + k → Latches (.drw x y n) s (.addressOutOfRange (s.i.toNat + k)))

/-- R193 (the spec derives it from R191 and R192): drawing the same sprite again, at the same origin with
the same `I`, `N` and memory, restores the display. Where the first draw found every covered pixel dark, the
second sets VF exactly when the sprite has a set pixel on the screen, as R193 says; in general it sets VF
exactly when a covered pixel was dark before the first draw, which is what R192 gives (log 13). -/
def Obligations.DrawingTwiceRestoresTheDisplay : Prop :=
  ∀ (x y : Reg) (n : Count) (s t t' u : State), (∀ k < n.val, Readable s.cfg (s.i.toNat + k)) →
    exec (.drw x y n) s = .next t →
    t'.fb = t.fb → t'.cfg = s.cfg → t'.i = s.i → (∀ a, t'.byteAt a = s.byteAt a) →
    t'.reg x = s.reg x → t'.reg y = s.reg y → exec (.drw x y n) t' = .next u →
    u.fb = s.fb ∧
    (u.reg 15 = 0x01#8 ↔ ∃ px py, SpriteCovers s x y n.val px py ∧ pixelAt s.fb px py = false) ∧
    (t.reg 15 = 0x00#8 → (u.reg 15 = 0x01#8 ↔ ∃ px py, SpriteCovers s x y n.val px py))

/-! ## Timer and random instructions -/

/-- R210. -/
def Obligations.LoadFromDelayTimer : Prop :=
  ∀ (x : Reg) (s : State),
    decode (BitVec.ofNat 16 (0xF007 + 0x100 * x.val)) = some (.ldVxDt x) ∧
    ∃ t, exec (.ldVxDt x) s = .next t ∧ t.reg x = s.dt ∧ t.pc.toNat = (s.pc.toNat + 2) % 0x10000 ∧
      UnchangedBut [.reg x, .pc] s t

/-- R211, R212: the timer takes the register; SOUND is true at once exactly when the sound timer is not
zero. -/
def Obligations.StoreToTimers : Prop :=
  ∀ (x : Reg) (s : State),
    decode (BitVec.ofNat 16 (0xF015 + 0x100 * x.val)) = some (.ldDtVx x) ∧
    decode (BitVec.ofNat 16 (0xF018 + 0x100 * x.val)) = some (.ldStVx x) ∧
    (∃ t, exec (.ldDtVx x) s = .next t ∧ t.dt = s.reg x ∧ t.pc.toNat = (s.pc.toNat + 2) % 0x10000 ∧
      UnchangedBut [.delayTimer, .pc] s t) ∧
    (∃ t, exec (.ldStVx x) s = .next t ∧ t.st = s.reg x ∧ t.pc.toNat = (s.pc.toNat + 2) % 0x10000 ∧
      UnchangedBut [.soundTimer, .pc] s t ∧ (soundActive t = true ↔ (s.reg x).toNat ≠ 0))

/-- R213 (that each CXNN takes one free draw is the spec's decision D21; that draws are numbered by a
counter is the model's choice, log 2): the register takes the draw masked, whatever the draw is; no bit
outside the mask is set. -/
def Obligations.RandomByteIsMasked : Prop :=
  ∀ (x : Reg) (nn : Byte) (s : State),
    decode (BitVec.ofNat 16 (0xC000 + 0x100 * x.val + nn.toNat)) = some (.rnd x nn) ∧
    ∃ t, exec (.rnd x nn) s = .next t ∧ t.draws = s.draws + 1 ∧
      (∀ k, (t.reg x).getLsbD k = ((Config.randByte s.draws).getLsbD k && nn.getLsbD k)) ∧
      t.pc.toNat = (s.pc.toNat + 2) % 0x10000 ∧ UnchangedBut [.reg x, .pc, .draws] s t

/-! ## Input instructions -/

/-- R221 and R222, with R220 for a value above 15. -/
def Obligations.KeySkipsTestTheLatch : Prop :=
  ∀ (x : Reg) (s : State),
    decode (BitVec.ofNat 16 (0xE09E + 0x100 * x.val)) = some (.skp x) ∧
    decode (BitVec.ofNat 16 (0xE0A1 + 0x100 * x.val)) = some (.sknp x) ∧
    (∀ k : KeyNo, k.val = (s.reg x).toNat % 16 → (s.reg x).toNat ≤ 15 ∨ s.cfg.keyIndex = .mask →
      (∃ t, exec (.skp x) s = .next t ∧ UnchangedBut [.pc] s t ∧
        t.pc.toNat = (s.pc.toNat + if s.keyDown k then 4 else 2) % 0x10000) ∧
      (∃ t, exec (.sknp x) s = .next t ∧ UnchangedBut [.pc] s t ∧
        t.pc.toNat = (s.pc.toNat + if s.keyDown k then 2 else 4) % 0x10000)) ∧
    (15 < (s.reg x).toNat → s.cfg.keyIndex = .fault →
      Latches (.skp x) s (.keyIndexOutOfRange (s.reg x)) ∧
      Latches (.sknp x) s (.keyIndexOutOfRange (s.reg x)))

/-- R223: the marker is set, `V[X]` is not written, and `PC` moves by `P_KEYWAIT_PC`; a key already down
does not end the wait (derived by the spec from R107): no transaction but a press and a reset does. -/
def Obligations.KeyWaitBegins : Prop :=
  ∀ (x : Reg) (s : State),
    decode (BitVec.ofNat 16 (0xF00A + 0x100 * x.val)) = some (.ldVxK x) ∧
    ∃ t, exec (.ldVxK x) s = .next t ∧ t.wait = some x ∧ UnchangedBut [.wait, .pc] s t ∧
      t.pc.toNat = (if s.cfg.keywaitPc = .atIssue then (s.pc.toNat + 2) % 0x10000 else s.pc.toNat) ∧
      (∀ (tr : Transaction) (u : State) (r : Response), transact tr t = .next (u, r) → u.wait ≠ some x →
        tr = .construct ∨ (∃ bs, tr = .load bs) ∨ ∃ k, tr = .key k true)

/-! ## Host transactions -/

/-- R240: each timer that is not zero is one less, in every interpreter state; nothing else changes. -/
def Obligations.TickCountsDown : Prop :=
  ∀ s : State, ∃ t, transact .tick s = .next (t, .done) ∧ t.dt.toNat = s.dt.toNat - 1 ∧
    t.st.toNat = s.st.toNat - 1 ∧ UnchangedBut [.delayTimer, .soundTimer] s t

/-- R243: the latch takes the event; a press, and only a press, resolves a pending wait: the key number into
the marked register, the marker cleared, and `PC` advanced under `P_KEYWAIT_PC = AtResolve`. -/
def Obligations.KeyEventLatchesAndResolvesTheWait : Prop :=
  ∀ (k : KeyNo) (pressed : Bool) (s : State), ∃ t, transact (.key k pressed) s = .next (t, .done) ∧
    t.keyDown k = pressed ∧
    (pressed = false ∨ s.wait = none → UnchangedBut [.key k] s t) ∧
    (∀ r, pressed = true → s.wait = some r → (t.reg r).toNat = k.val ∧ t.wait = none ∧
      t.pc.toNat = (if s.cfg.keywaitPc = .atResolve then (s.pc.toNat + 2) % 0x10000 else s.pc.toNat) ∧
      UnchangedBut [.key k, .reg r, .wait, .pc] s t)

/-- R262, R263: a program of at most 3584 bytes is installed verbatim at 0x200 over the reset state; a
longer one leaves the reset state and gives `ProgramTooLarge`. -/
def Obligations.LoadInstallsTheProgram : Prop :=
  ∀ (bs : List Byte) (s : State),
    (bs.length ≤ 4096 - 512 → ∃ t, transact (.load bs) s = .next (t, .ok) ∧
      (∀ k (h : k < bs.length), t.byteAt (0x200 + k) = bs[k]) ∧
      UnchangedBut ((List.range bs.length).map fun k => .byte (0x200 + k)) (construct s) t) ∧
    (4096 - 512 < bs.length →
      transact (.load bs) s = .next (construct s, .loadError (.programTooLarge bs.length)))

/-- R264 (the spec derives it from R261 and R262): loading the same bytes gives the same state whatever the
state before, but for the model's count of draws, which is not state of the block (log 2). -/
def Obligations.ReloadingGivesTheSameState : Prop :=
  ∀ (bs : List Byte) (s s' : State), s.cfg = s'.cfg →
    (load bs s).1 = { (load bs s').1 with draws := s.draws } ∧ (load bs s).2 = (load bs s').2

/-- R35, R57, R260, R261: the reset value of every field, after CONSTRUCT and in the machine's reset state.
The font bytes are general knowledge the spec supplies, and the zeros its decision (I-G3, D25; log 11, 12);
which parameters `State.reset` has is the model's choice (log 1), and nothing here rests on it. -/
def Obligations.ResetGivesEveryFieldItsValue : Prop :=
  ∀ s t : State, transact .construct s = .next (t, .done) ∨ t = State.reset →
    (∀ x, t.reg x = 0x00#8) ∧ t.i = 0x0000#16 ∧ t.pc = 0x0200#16 ∧ t.stack = [] ∧
    (∀ px py, pixelAt t.fb px py = false) ∧ t.dt = 0x00#8 ∧ t.st = 0x00#8 ∧ (∀ k, t.keyDown k = false) ∧
    t.wait = none ∧ t.halt = none ∧
    (∀ a, a < t.cfg.fontBase.toNat ∨ t.cfg.fontBase.toNat + 80 ≤ a → t.byteAt a = 0x00#8) ∧
    (∀ d glyph, (d, glyph) ∈ [(0x0, [0xF0#8, 0x90, 0x90, 0x90, 0xF0]), (0x1, [0x20#8, 0x60, 0x20, 0x20, 0x70]),
        (0x2, [0xF0#8, 0x10, 0xF0, 0x80, 0xF0]), (0x3, [0xF0#8, 0x10, 0xF0, 0x10, 0xF0]),
        (0x4, [0x90#8, 0x90, 0xF0, 0x10, 0x10]), (0x5, [0xF0#8, 0x80, 0xF0, 0x10, 0xF0]),
        (0x6, [0xF0#8, 0x80, 0xF0, 0x90, 0xF0]), (0x7, [0xF0#8, 0x10, 0x20, 0x40, 0x40]),
        (0x8, [0xF0#8, 0x90, 0xF0, 0x90, 0xF0]), (0x9, [0xF0#8, 0x90, 0xF0, 0x10, 0xF0]),
        (0xA, [0xF0#8, 0x90, 0xF0, 0x90, 0x90]), (0xB, [0xE0#8, 0x90, 0xE0, 0x90, 0xE0]),
        (0xC, [0xF0#8, 0x80, 0x80, 0x80, 0xF0]), (0xD, [0xE0#8, 0x90, 0x90, 0x90, 0xE0]),
        (0xE, [0xF0#8, 0x80, 0xF0, 0x80, 0xF0]), (0xF, [0xF0#8, 0x80, 0xF0, 0x80, 0x80])] →
      ∀ k < 5, t.byteAt (t.cfg.fontBase.toNat + 5 * d + k) = glyph.getD k 0)

/-- R195, R242: SNAPSHOT gives every pixel and SOUND whether `ST` is not zero; neither changes the state,
in any interpreter state. -/
def Obligations.SnapshotAndSoundOnlyRead : Prop :=
  ∀ s : State, transact .snapshot s = .next (s, .grid s.fb) ∧
    ∃ active, transact .sound s = .next (s, .sound active) ∧ (active = true ↔ s.st.toNat ≠ 0)
end

