-- ==== Sys2Proof/Laws/Decode.lean ====
section
/-! SUPPORT. The fields of the words each format builds, and what matching a row's mask says of a
word's fields. -/

namespace Sys2Proof

/-! ### The fields of a formatted word -/

theorem word_toNat_lt (w : Word) : w.toNat < 65536 := w.isLt

theorem formatNNN_toNat {o : Nat} (nnn : Addr) (ho : o < 16) :
    (formatNNN o nnn).toNat = o * 0x1000 + nnn.toNat := by
  have := nnn.isLt
  rw [formatNNN, BitVec.toNat_ofNat, Nat.mod_eq_of_lt (by omega)]

theorem formatXNN_toNat {o : Nat} (x : Reg) (nn : Byte) (ho : o < 16) :
    (formatXNN o x nn).toNat = o * 0x1000 + x.val * 0x100 + nn.toNat := by
  have := nn.isLt
  have := x.isLt
  rw [formatXNN, BitVec.toNat_ofNat, Nat.mod_eq_of_lt (by omega)]

theorem formatXYN_toNat {o f : Nat} (x y : Reg) (ho : o < 16) (hf : f < 16) :
    (formatXYN o x y f).toNat = o * 0x1000 + x.val * 0x100 + y.val * 0x10 + f := by
  have := x.isLt
  have := y.isLt
  rw [formatXYN, BitVec.toNat_ofNat, Nat.mod_eq_of_lt (by omega)]

theorem formatX_toNat {o f : Nat} (x : Reg) (ho : o < 16) (hf : f < 256) :
    (formatX o x f).toNat = o * 0x1000 + x.val * 0x100 + f := by
  have := x.isLt
  rw [formatX, BitVec.toNat_ofNat, Nat.mod_eq_of_lt (by omega)]

/-! ### The fields as quotients and remainders -/

theorem bits_15_12 (w : Word) : bits w 15 12 = w.toNat / 4096 := by
  have := w.isLt
  unfold bits
  omega

theorem bits_11_8 (w : Word) : bits w 11 8 = w.toNat / 256 % 16 := by unfold bits; rfl

theorem bits_7_4 (w : Word) : bits w 7 4 = w.toNat / 16 % 16 := by unfold bits; rfl

theorem bits_3_0 (w : Word) : bits w 3 0 = w.toNat % 16 := by unfold bits; omega

theorem bits_7_0 (w : Word) : bits w 7 0 = w.toNat % 256 := by unfold bits; omega

theorem bits_11_0 (w : Word) : bits w 11 0 = w.toNat % 4096 := by unfold bits; omega

theorem bits_15_8 (w : Word) : bits w 15 8 = w.toNat / 256 := by
  have := w.isLt
  unfold bits
  omega

/-! ### The fields of each format -/

/-- A register field read as a remainder is that register. -/
theorem reg_of_nat {n : Nat} {x : Reg} (h : n % 16 = x.val) : Fin.ofNat 16 n = x := Fin.ext h

section fields
variable {o f : Nat} (x y : Reg) (nn : Byte) (nnn : Addr)

@[simp] theorem formatNNN_op (ho : o < 16) : bits (formatNNN o nnn) 15 12 = o := by
  have := nnn.isLt
  rw [bits_15_12, formatNNN_toNat nnn ho]
  omega

@[simp] theorem formatNNN_addr (ho : o < 16) : fieldNNN (formatNNN o nnn) = nnn := by
  have := nnn.isLt
  apply BitVec.eq_of_toNat_eq
  rw [fieldNNN, BitVec.toNat_ofNat, bits_11_0, formatNNN_toNat nnn ho]
  omega

@[simp] theorem formatXNN_op (ho : o < 16) : bits (formatXNN o x nn) 15 12 = o := by
  have := nn.isLt
  rw [bits_15_12, formatXNN_toNat x nn ho]
  omega

@[simp] theorem formatXNN_x (ho : o < 16) : fieldX (formatXNN o x nn) = x := by
  have := nn.isLt
  apply reg_of_nat
  rw [bits_11_8, formatXNN_toNat x nn ho]
  omega

@[simp] theorem formatXNN_nn (ho : o < 16) : fieldNN (formatXNN o x nn) = nn := by
  have := nn.isLt
  apply BitVec.eq_of_toNat_eq
  rw [fieldNN, BitVec.toNat_ofNat, bits_7_0, formatXNN_toNat x nn ho]
  omega

@[simp] theorem formatXYN_op (ho : o < 16) (hf : f < 16) : bits (formatXYN o x y f) 15 12 = o := by
  rw [bits_15_12, formatXYN_toNat x y ho hf]
  omega

@[simp] theorem formatXYN_x (ho : o < 16) (hf : f < 16) : fieldX (formatXYN o x y f) = x := by
  apply reg_of_nat
  rw [bits_11_8, formatXYN_toNat x y ho hf]
  omega

@[simp] theorem formatXYN_y (ho : o < 16) (hf : f < 16) : fieldY (formatXYN o x y f) = y := by
  apply reg_of_nat
  rw [bits_7_4, formatXYN_toNat x y ho hf]
  omega

@[simp] theorem formatXYN_n (ho : o < 16) (hf : f < 16) : bits (formatXYN o x y f) 3 0 = f := by
  rw [bits_3_0, formatXYN_toNat x y ho hf]
  omega

@[simp] theorem formatXYN_count (ho : o < 16) (n : Count) : fieldN (formatXYN o x y n.val) = n := by
  apply reg_of_nat
  rw [formatXYN_n x y ho n.isLt, Nat.mod_eq_of_lt n.isLt]

@[simp] theorem formatX_op (ho : o < 16) (hf : f < 256) : bits (formatX o x f) 15 12 = o := by
  rw [bits_15_12, formatX_toNat x ho hf]
  omega

@[simp] theorem formatX_x (ho : o < 16) (hf : f < 256) : fieldX (formatX o x f) = x := by
  apply reg_of_nat
  rw [bits_11_8, formatX_toNat x ho hf]
  omega

@[simp] theorem formatX_function (ho : o < 16) (hf : f < 256) : bits (formatX o x f) 7 0 = f := by
  rw [bits_7_0, formatX_toNat x ho hf]
  omega

end fields

/-! ### The row masks -/

theorem nat_and_high (n : Nat) : n &&& 0xF000 = n / 4096 % 16 * 4096 := by
  have h : n &&& 0xF000 = ((n >>> 12) &&& (2 ^ 4 - 1)) <<< 12 := by
    apply Nat.eq_of_testBit_eq
    intro k
    rw [show (0xF000 : Nat) = (2 ^ 4 - 1) <<< 12 from rfl]
    simp only [Nat.testBit_and, Nat.testBit_shiftLeft, Nat.testBit_shiftRight]
    by_cases hk : 12 ≤ k
    · simp [hk, Nat.add_sub_cancel' hk]
    · simp [hk]
  rw [h, Nat.and_two_pow_sub_one_eq_mod, Nat.shiftLeft_eq, Nat.shiftRight_eq_div_pow]

theorem nat_and_high_low (n k : Nat) (hk : k ≤ 12) :
    n &&& (0xF000 ||| (2 ^ k - 1)) = n / 4096 % 16 * 4096 + n % 2 ^ k := by
  rw [Nat.and_or_distrib_left, nat_and_high, Nat.and_two_pow_sub_one_eq_mod]
  have hlt : n % 2 ^ k < 2 ^ 12 :=
    lt_of_lt_of_le (Nat.mod_lt _ (Nat.two_pow_pos k)) (Nat.pow_le_pow_right (by norm_num) hk)
  have := Nat.shiftLeft_add_eq_or_of_lt hlt (n / 4096 % 16)
  rw [Nat.shiftLeft_eq] at this
  exact this.symm

/-- Mask F000 leaves the leading nibble. -/
theorem mask_F000 (w : Word) : (w &&& 0xF000#16).toNat = w.toNat / 4096 * 4096 := by
  have := w.isLt
  rw [BitVec.toNat_and]
  change w.toNat &&& 0xF000 = _
  rw [nat_and_high]
  omega

/-- Mask F00F leaves the leading nibble and the function nibble. -/
theorem mask_F00F (w : Word) : (w &&& 0xF00F#16).toNat = w.toNat / 4096 * 4096 + w.toNat % 16 := by
  have := w.isLt
  rw [BitVec.toNat_and]
  change w.toNat &&& (0xF000 ||| (2 ^ 4 - 1)) = _
  rw [nat_and_high_low _ _ (by norm_num)]
  omega

/-- Mask F0FF leaves the leading nibble and the function byte. -/
theorem mask_F0FF (w : Word) : (w &&& 0xF0FF#16).toNat = w.toNat / 4096 * 4096 + w.toNat % 256 := by
  have := w.isLt
  rw [BitVec.toNat_and]
  change w.toNat &&& (0xF000 ||| (2 ^ 8 - 1)) = _
  rw [nat_and_high_low _ _ (by norm_num)]
  omega

/-- Mask FFFF leaves the word. -/
theorem mask_FFFF (w : Word) : w &&& 0xFFFF#16 = w := BitVec.and_allOnes

/-- A row accepts a word when the masked word, as a number, is the row's value. -/
theorem OpcodeRow.accepts_iff (r : OpcodeRow) (w : Word) :
    r.accepts w = true ↔ (w &&& r.mask).toNat = r.value.toNat := by
  unfold OpcodeRow.accepts
  rw [beq_iff_eq, BitVec.toNat_eq]

theorem accepts_F000 {name : String} {v o : Nat} {w : Word} (hv : v = o * 4096)
    (hw : w.toNat / 4096 = o) : OpcodeRow.accepts ⟨name, BitVec.ofNat 16 v, 0xF000⟩ w = true := by
  have := w.isLt
  rw [OpcodeRow.accepts_iff, BitVec.toNat_ofNat]
  change (w &&& 0xF000#16).toNat = _
  rw [mask_F000]
  omega

theorem accepts_F00F {name : String} {v o f : Nat} {w : Word} (hv : v = o * 4096 + f)
    (hw : w.toNat / 4096 = o) (hwf : w.toNat % 16 = f) :
    OpcodeRow.accepts ⟨name, BitVec.ofNat 16 v, 0xF00F⟩ w = true := by
  have := w.isLt
  rw [OpcodeRow.accepts_iff, BitVec.toNat_ofNat]
  change (w &&& 0xF00F#16).toNat = _
  rw [mask_F00F]
  omega

theorem accepts_F0FF {name : String} {v o f : Nat} {w : Word} (hv : v = o * 4096 + f)
    (hw : w.toNat / 4096 = o) (hwf : w.toNat % 256 = f) :
    OpcodeRow.accepts ⟨name, BitVec.ofNat 16 v, 0xF0FF⟩ w = true := by
  have := w.isLt
  rw [OpcodeRow.accepts_iff, BitVec.toNat_ofNat]
  change (w &&& 0xF0FF#16).toNat = _
  rw [mask_F0FF]
  omega

/-! ### Reading back a byte pair -/

theorem wordOfBytes_toNat (hi lo : Byte) : (wordOfBytes hi lo).toNat = hi.toNat * 256 + lo.toNat := by
  have := hi.isLt
  have := lo.isLt
  rw [wordOfBytes, BitVec.toNat_ofNat, Nat.mod_eq_of_lt (by omega)]

@[simp] theorem wordOfBytes_high_low (w : Word) : wordOfBytes (highByte w) (lowByte w) = w := by
  have := w.isLt
  apply BitVec.eq_of_toNat_eq
  rw [wordOfBytes_toNat, highByte, lowByte, BitVec.toNat_ofNat, BitVec.toNat_ofNat, bits_15_8, bits_7_0]
  omega

end Sys2Proof
end

