-- ==== Sys2Proof/Laws/State.lean ====
section
/-! SUPPORT. What each field holds after each update of a state: one lemma a field and update, and the
same for the accessors `reg`, `keyDown`, `byteAt` and `fontBase`, so that no later proof unfolds an
update. -/

namespace Sys2Proof.Machine

variable (s : State)

/-! ### setReg -/

@[simp] theorem State.setReg_mem (x : Reg) (b : Byte) : (s.setReg x b).mem = s.mem := rfl
@[simp] theorem State.setReg_v (x : Reg) (b : Byte) : (s.setReg x b).v = s.v.set x.val b := rfl
@[simp] theorem State.setReg_i (x : Reg) (b : Byte) : (s.setReg x b).i = s.i := rfl
@[simp] theorem State.setReg_pc (x : Reg) (b : Byte) : (s.setReg x b).pc = s.pc := rfl
@[simp] theorem State.setReg_stack (x : Reg) (b : Byte) : (s.setReg x b).stack = s.stack := rfl
@[simp] theorem State.setReg_fb (x : Reg) (b : Byte) : (s.setReg x b).fb = s.fb := rfl
@[simp] theorem State.setReg_dt (x : Reg) (b : Byte) : (s.setReg x b).dt = s.dt := rfl
@[simp] theorem State.setReg_st (x : Reg) (b : Byte) : (s.setReg x b).st = s.st := rfl
@[simp] theorem State.setReg_key (x : Reg) (b : Byte) : (s.setReg x b).key = s.key := rfl
@[simp] theorem State.setReg_wait (x : Reg) (b : Byte) : (s.setReg x b).wait = s.wait := rfl
@[simp] theorem State.setReg_halt (x : Reg) (b : Byte) : (s.setReg x b).halt = s.halt := rfl
@[simp] theorem State.setReg_cfg (x : Reg) (b : Byte) : (s.setReg x b).cfg = s.cfg := rfl
@[simp] theorem State.setReg_draws (x : Reg) (b : Byte) : (s.setReg x b).draws = s.draws := rfl
@[simp] theorem State.setReg_keyDown (x : Reg) (b : Byte) (n : KeyNo) : (s.setReg x b).keyDown n = s.keyDown n := rfl
@[simp] theorem State.setReg_byteAt (x : Reg) (b : Byte) (n : Nat) : (s.setReg x b).byteAt n = s.byteAt n := rfl
@[simp] theorem State.setReg_fontBase (x : Reg) (b : Byte) : (s.setReg x b).fontBase = s.fontBase := rfl

/-! ### setFlag -/

@[simp] theorem State.setFlag_mem (b : Byte) : (s.setFlag b).mem = s.mem := rfl
@[simp] theorem State.setFlag_v (b : Byte) : (s.setFlag b).v = s.v.set regVF.val b := rfl
@[simp] theorem State.setFlag_i (b : Byte) : (s.setFlag b).i = s.i := rfl
@[simp] theorem State.setFlag_pc (b : Byte) : (s.setFlag b).pc = s.pc := rfl
@[simp] theorem State.setFlag_stack (b : Byte) : (s.setFlag b).stack = s.stack := rfl
@[simp] theorem State.setFlag_fb (b : Byte) : (s.setFlag b).fb = s.fb := rfl
@[simp] theorem State.setFlag_dt (b : Byte) : (s.setFlag b).dt = s.dt := rfl
@[simp] theorem State.setFlag_st (b : Byte) : (s.setFlag b).st = s.st := rfl
@[simp] theorem State.setFlag_key (b : Byte) : (s.setFlag b).key = s.key := rfl
@[simp] theorem State.setFlag_wait (b : Byte) : (s.setFlag b).wait = s.wait := rfl
@[simp] theorem State.setFlag_halt (b : Byte) : (s.setFlag b).halt = s.halt := rfl
@[simp] theorem State.setFlag_cfg (b : Byte) : (s.setFlag b).cfg = s.cfg := rfl
@[simp] theorem State.setFlag_draws (b : Byte) : (s.setFlag b).draws = s.draws := rfl
@[simp] theorem State.setFlag_keyDown (b : Byte) (n : KeyNo) : (s.setFlag b).keyDown n = s.keyDown n := rfl
@[simp] theorem State.setFlag_byteAt (b : Byte) (n : Nat) : (s.setFlag b).byteAt n = s.byteAt n := rfl
@[simp] theorem State.setFlag_fontBase (b : Byte) : (s.setFlag b).fontBase = s.fontBase := rfl

/-! ### setI -/

@[simp] theorem State.setI_mem (w : Word) : (s.setI w).mem = s.mem := rfl
@[simp] theorem State.setI_v (w : Word) : (s.setI w).v = s.v := rfl
@[simp] theorem State.setI_i (w : Word) : (s.setI w).i = w := rfl
@[simp] theorem State.setI_pc (w : Word) : (s.setI w).pc = s.pc := rfl
@[simp] theorem State.setI_stack (w : Word) : (s.setI w).stack = s.stack := rfl
@[simp] theorem State.setI_fb (w : Word) : (s.setI w).fb = s.fb := rfl
@[simp] theorem State.setI_dt (w : Word) : (s.setI w).dt = s.dt := rfl
@[simp] theorem State.setI_st (w : Word) : (s.setI w).st = s.st := rfl
@[simp] theorem State.setI_key (w : Word) : (s.setI w).key = s.key := rfl
@[simp] theorem State.setI_wait (w : Word) : (s.setI w).wait = s.wait := rfl
@[simp] theorem State.setI_halt (w : Word) : (s.setI w).halt = s.halt := rfl
@[simp] theorem State.setI_cfg (w : Word) : (s.setI w).cfg = s.cfg := rfl
@[simp] theorem State.setI_draws (w : Word) : (s.setI w).draws = s.draws := rfl
@[simp] theorem State.setI_reg (w : Word) (y : Reg) : (s.setI w).reg y = s.reg y := rfl
@[simp] theorem State.setI_keyDown (w : Word) (n : KeyNo) : (s.setI w).keyDown n = s.keyDown n := rfl
@[simp] theorem State.setI_byteAt (w : Word) (n : Nat) : (s.setI w).byteAt n = s.byteAt n := rfl
@[simp] theorem State.setI_fontBase (w : Word) : (s.setI w).fontBase = s.fontBase := rfl

/-! ### setPc -/

@[simp] theorem State.setPc_mem (w : Word) : (s.setPc w).mem = s.mem := rfl
@[simp] theorem State.setPc_v (w : Word) : (s.setPc w).v = s.v := rfl
@[simp] theorem State.setPc_i (w : Word) : (s.setPc w).i = s.i := rfl
@[simp] theorem State.setPc_pc (w : Word) : (s.setPc w).pc = w := rfl
@[simp] theorem State.setPc_stack (w : Word) : (s.setPc w).stack = s.stack := rfl
@[simp] theorem State.setPc_fb (w : Word) : (s.setPc w).fb = s.fb := rfl
@[simp] theorem State.setPc_dt (w : Word) : (s.setPc w).dt = s.dt := rfl
@[simp] theorem State.setPc_st (w : Word) : (s.setPc w).st = s.st := rfl
@[simp] theorem State.setPc_key (w : Word) : (s.setPc w).key = s.key := rfl
@[simp] theorem State.setPc_wait (w : Word) : (s.setPc w).wait = s.wait := rfl
@[simp] theorem State.setPc_halt (w : Word) : (s.setPc w).halt = s.halt := rfl
@[simp] theorem State.setPc_cfg (w : Word) : (s.setPc w).cfg = s.cfg := rfl
@[simp] theorem State.setPc_draws (w : Word) : (s.setPc w).draws = s.draws := rfl
@[simp] theorem State.setPc_reg (w : Word) (y : Reg) : (s.setPc w).reg y = s.reg y := rfl
@[simp] theorem State.setPc_keyDown (w : Word) (n : KeyNo) : (s.setPc w).keyDown n = s.keyDown n := rfl
@[simp] theorem State.setPc_byteAt (w : Word) (n : Nat) : (s.setPc w).byteAt n = s.byteAt n := rfl
@[simp] theorem State.setPc_fontBase (w : Word) : (s.setPc w).fontBase = s.fontBase := rfl

/-! ### setStack -/

@[simp] theorem State.setStack_mem (l : List Word) : (s.setStack l).mem = s.mem := rfl
@[simp] theorem State.setStack_v (l : List Word) : (s.setStack l).v = s.v := rfl
@[simp] theorem State.setStack_i (l : List Word) : (s.setStack l).i = s.i := rfl
@[simp] theorem State.setStack_pc (l : List Word) : (s.setStack l).pc = s.pc := rfl
@[simp] theorem State.setStack_stack (l : List Word) : (s.setStack l).stack = l := rfl
@[simp] theorem State.setStack_fb (l : List Word) : (s.setStack l).fb = s.fb := rfl
@[simp] theorem State.setStack_dt (l : List Word) : (s.setStack l).dt = s.dt := rfl
@[simp] theorem State.setStack_st (l : List Word) : (s.setStack l).st = s.st := rfl
@[simp] theorem State.setStack_key (l : List Word) : (s.setStack l).key = s.key := rfl
@[simp] theorem State.setStack_wait (l : List Word) : (s.setStack l).wait = s.wait := rfl
@[simp] theorem State.setStack_halt (l : List Word) : (s.setStack l).halt = s.halt := rfl
@[simp] theorem State.setStack_cfg (l : List Word) : (s.setStack l).cfg = s.cfg := rfl
@[simp] theorem State.setStack_draws (l : List Word) : (s.setStack l).draws = s.draws := rfl
@[simp] theorem State.setStack_reg (l : List Word) (y : Reg) : (s.setStack l).reg y = s.reg y := rfl
@[simp] theorem State.setStack_keyDown (l : List Word) (n : KeyNo) : (s.setStack l).keyDown n = s.keyDown n := rfl
@[simp] theorem State.setStack_byteAt (l : List Word) (n : Nat) : (s.setStack l).byteAt n = s.byteAt n := rfl
@[simp] theorem State.setStack_fontBase (l : List Word) : (s.setStack l).fontBase = s.fontBase := rfl

/-! ### setFb -/

@[simp] theorem State.setFb_mem (fb : Raster) : (s.setFb fb).mem = s.mem := rfl
@[simp] theorem State.setFb_v (fb : Raster) : (s.setFb fb).v = s.v := rfl
@[simp] theorem State.setFb_i (fb : Raster) : (s.setFb fb).i = s.i := rfl
@[simp] theorem State.setFb_pc (fb : Raster) : (s.setFb fb).pc = s.pc := rfl
@[simp] theorem State.setFb_stack (fb : Raster) : (s.setFb fb).stack = s.stack := rfl
@[simp] theorem State.setFb_fb (fb : Raster) : (s.setFb fb).fb = fb := rfl
@[simp] theorem State.setFb_dt (fb : Raster) : (s.setFb fb).dt = s.dt := rfl
@[simp] theorem State.setFb_st (fb : Raster) : (s.setFb fb).st = s.st := rfl
@[simp] theorem State.setFb_key (fb : Raster) : (s.setFb fb).key = s.key := rfl
@[simp] theorem State.setFb_wait (fb : Raster) : (s.setFb fb).wait = s.wait := rfl
@[simp] theorem State.setFb_halt (fb : Raster) : (s.setFb fb).halt = s.halt := rfl
@[simp] theorem State.setFb_cfg (fb : Raster) : (s.setFb fb).cfg = s.cfg := rfl
@[simp] theorem State.setFb_draws (fb : Raster) : (s.setFb fb).draws = s.draws := rfl
@[simp] theorem State.setFb_reg (fb : Raster) (y : Reg) : (s.setFb fb).reg y = s.reg y := rfl
@[simp] theorem State.setFb_keyDown (fb : Raster) (n : KeyNo) : (s.setFb fb).keyDown n = s.keyDown n := rfl
@[simp] theorem State.setFb_byteAt (fb : Raster) (n : Nat) : (s.setFb fb).byteAt n = s.byteAt n := rfl
@[simp] theorem State.setFb_fontBase (fb : Raster) : (s.setFb fb).fontBase = s.fontBase := rfl

/-! ### setDt -/

@[simp] theorem State.setDt_mem (b : Byte) : (s.setDt b).mem = s.mem := rfl
@[simp] theorem State.setDt_v (b : Byte) : (s.setDt b).v = s.v := rfl
@[simp] theorem State.setDt_i (b : Byte) : (s.setDt b).i = s.i := rfl
@[simp] theorem State.setDt_pc (b : Byte) : (s.setDt b).pc = s.pc := rfl
@[simp] theorem State.setDt_stack (b : Byte) : (s.setDt b).stack = s.stack := rfl
@[simp] theorem State.setDt_fb (b : Byte) : (s.setDt b).fb = s.fb := rfl
@[simp] theorem State.setDt_dt (b : Byte) : (s.setDt b).dt = b := rfl
@[simp] theorem State.setDt_st (b : Byte) : (s.setDt b).st = s.st := rfl
@[simp] theorem State.setDt_key (b : Byte) : (s.setDt b).key = s.key := rfl
@[simp] theorem State.setDt_wait (b : Byte) : (s.setDt b).wait = s.wait := rfl
@[simp] theorem State.setDt_halt (b : Byte) : (s.setDt b).halt = s.halt := rfl
@[simp] theorem State.setDt_cfg (b : Byte) : (s.setDt b).cfg = s.cfg := rfl
@[simp] theorem State.setDt_draws (b : Byte) : (s.setDt b).draws = s.draws := rfl
@[simp] theorem State.setDt_reg (b : Byte) (y : Reg) : (s.setDt b).reg y = s.reg y := rfl
@[simp] theorem State.setDt_keyDown (b : Byte) (n : KeyNo) : (s.setDt b).keyDown n = s.keyDown n := rfl
@[simp] theorem State.setDt_byteAt (b : Byte) (n : Nat) : (s.setDt b).byteAt n = s.byteAt n := rfl
@[simp] theorem State.setDt_fontBase (b : Byte) : (s.setDt b).fontBase = s.fontBase := rfl

/-! ### setSt -/

@[simp] theorem State.setSt_mem (b : Byte) : (s.setSt b).mem = s.mem := rfl
@[simp] theorem State.setSt_v (b : Byte) : (s.setSt b).v = s.v := rfl
@[simp] theorem State.setSt_i (b : Byte) : (s.setSt b).i = s.i := rfl
@[simp] theorem State.setSt_pc (b : Byte) : (s.setSt b).pc = s.pc := rfl
@[simp] theorem State.setSt_stack (b : Byte) : (s.setSt b).stack = s.stack := rfl
@[simp] theorem State.setSt_fb (b : Byte) : (s.setSt b).fb = s.fb := rfl
@[simp] theorem State.setSt_dt (b : Byte) : (s.setSt b).dt = s.dt := rfl
@[simp] theorem State.setSt_st (b : Byte) : (s.setSt b).st = b := rfl
@[simp] theorem State.setSt_key (b : Byte) : (s.setSt b).key = s.key := rfl
@[simp] theorem State.setSt_wait (b : Byte) : (s.setSt b).wait = s.wait := rfl
@[simp] theorem State.setSt_halt (b : Byte) : (s.setSt b).halt = s.halt := rfl
@[simp] theorem State.setSt_cfg (b : Byte) : (s.setSt b).cfg = s.cfg := rfl
@[simp] theorem State.setSt_draws (b : Byte) : (s.setSt b).draws = s.draws := rfl
@[simp] theorem State.setSt_reg (b : Byte) (y : Reg) : (s.setSt b).reg y = s.reg y := rfl
@[simp] theorem State.setSt_keyDown (b : Byte) (n : KeyNo) : (s.setSt b).keyDown n = s.keyDown n := rfl
@[simp] theorem State.setSt_byteAt (b : Byte) (n : Nat) : (s.setSt b).byteAt n = s.byteAt n := rfl
@[simp] theorem State.setSt_fontBase (b : Byte) : (s.setSt b).fontBase = s.fontBase := rfl

/-! ### setKey -/

@[simp] theorem State.setKey_mem (k : KeyNo) (d : Bool) : (s.setKey k d).mem = s.mem := rfl
@[simp] theorem State.setKey_v (k : KeyNo) (d : Bool) : (s.setKey k d).v = s.v := rfl
@[simp] theorem State.setKey_i (k : KeyNo) (d : Bool) : (s.setKey k d).i = s.i := rfl
@[simp] theorem State.setKey_pc (k : KeyNo) (d : Bool) : (s.setKey k d).pc = s.pc := rfl
@[simp] theorem State.setKey_stack (k : KeyNo) (d : Bool) : (s.setKey k d).stack = s.stack := rfl
@[simp] theorem State.setKey_fb (k : KeyNo) (d : Bool) : (s.setKey k d).fb = s.fb := rfl
@[simp] theorem State.setKey_dt (k : KeyNo) (d : Bool) : (s.setKey k d).dt = s.dt := rfl
@[simp] theorem State.setKey_st (k : KeyNo) (d : Bool) : (s.setKey k d).st = s.st := rfl
@[simp] theorem State.setKey_key (k : KeyNo) (d : Bool) : (s.setKey k d).key = s.key.set k.val d := rfl
@[simp] theorem State.setKey_wait (k : KeyNo) (d : Bool) : (s.setKey k d).wait = s.wait := rfl
@[simp] theorem State.setKey_halt (k : KeyNo) (d : Bool) : (s.setKey k d).halt = s.halt := rfl
@[simp] theorem State.setKey_cfg (k : KeyNo) (d : Bool) : (s.setKey k d).cfg = s.cfg := rfl
@[simp] theorem State.setKey_draws (k : KeyNo) (d : Bool) : (s.setKey k d).draws = s.draws := rfl
@[simp] theorem State.setKey_reg (k : KeyNo) (d : Bool) (y : Reg) : (s.setKey k d).reg y = s.reg y := rfl
@[simp] theorem State.setKey_byteAt (k : KeyNo) (d : Bool) (n : Nat) : (s.setKey k d).byteAt n = s.byteAt n := rfl
@[simp] theorem State.setKey_fontBase (k : KeyNo) (d : Bool) : (s.setKey k d).fontBase = s.fontBase := rfl

/-! ### setWait -/

@[simp] theorem State.setWait_mem (r : Option Reg) : (s.setWait r).mem = s.mem := rfl
@[simp] theorem State.setWait_v (r : Option Reg) : (s.setWait r).v = s.v := rfl
@[simp] theorem State.setWait_i (r : Option Reg) : (s.setWait r).i = s.i := rfl
@[simp] theorem State.setWait_pc (r : Option Reg) : (s.setWait r).pc = s.pc := rfl
@[simp] theorem State.setWait_stack (r : Option Reg) : (s.setWait r).stack = s.stack := rfl
@[simp] theorem State.setWait_fb (r : Option Reg) : (s.setWait r).fb = s.fb := rfl
@[simp] theorem State.setWait_dt (r : Option Reg) : (s.setWait r).dt = s.dt := rfl
@[simp] theorem State.setWait_st (r : Option Reg) : (s.setWait r).st = s.st := rfl
@[simp] theorem State.setWait_key (r : Option Reg) : (s.setWait r).key = s.key := rfl
@[simp] theorem State.setWait_wait (r : Option Reg) : (s.setWait r).wait = r := rfl
@[simp] theorem State.setWait_halt (r : Option Reg) : (s.setWait r).halt = s.halt := rfl
@[simp] theorem State.setWait_cfg (r : Option Reg) : (s.setWait r).cfg = s.cfg := rfl
@[simp] theorem State.setWait_draws (r : Option Reg) : (s.setWait r).draws = s.draws := rfl
@[simp] theorem State.setWait_reg (r : Option Reg) (y : Reg) : (s.setWait r).reg y = s.reg y := rfl
@[simp] theorem State.setWait_keyDown (r : Option Reg) (n : KeyNo) : (s.setWait r).keyDown n = s.keyDown n := rfl
@[simp] theorem State.setWait_byteAt (r : Option Reg) (n : Nat) : (s.setWait r).byteAt n = s.byteAt n := rfl
@[simp] theorem State.setWait_fontBase (r : Option Reg) : (s.setWait r).fontBase = s.fontBase := rfl

/-! ### setHalt -/

@[simp] theorem State.setHalt_mem (e : Option CpuError) : (s.setHalt e).mem = s.mem := rfl
@[simp] theorem State.setHalt_v (e : Option CpuError) : (s.setHalt e).v = s.v := rfl
@[simp] theorem State.setHalt_i (e : Option CpuError) : (s.setHalt e).i = s.i := rfl
@[simp] theorem State.setHalt_pc (e : Option CpuError) : (s.setHalt e).pc = s.pc := rfl
@[simp] theorem State.setHalt_stack (e : Option CpuError) : (s.setHalt e).stack = s.stack := rfl
@[simp] theorem State.setHalt_fb (e : Option CpuError) : (s.setHalt e).fb = s.fb := rfl
@[simp] theorem State.setHalt_dt (e : Option CpuError) : (s.setHalt e).dt = s.dt := rfl
@[simp] theorem State.setHalt_st (e : Option CpuError) : (s.setHalt e).st = s.st := rfl
@[simp] theorem State.setHalt_key (e : Option CpuError) : (s.setHalt e).key = s.key := rfl
@[simp] theorem State.setHalt_wait (e : Option CpuError) : (s.setHalt e).wait = s.wait := rfl
@[simp] theorem State.setHalt_halt (e : Option CpuError) : (s.setHalt e).halt = e := rfl
@[simp] theorem State.setHalt_cfg (e : Option CpuError) : (s.setHalt e).cfg = s.cfg := rfl
@[simp] theorem State.setHalt_draws (e : Option CpuError) : (s.setHalt e).draws = s.draws := rfl
@[simp] theorem State.setHalt_reg (e : Option CpuError) (y : Reg) : (s.setHalt e).reg y = s.reg y := rfl
@[simp] theorem State.setHalt_keyDown (e : Option CpuError) (n : KeyNo) : (s.setHalt e).keyDown n = s.keyDown n := rfl
@[simp] theorem State.setHalt_byteAt (e : Option CpuError) (n : Nat) : (s.setHalt e).byteAt n = s.byteAt n := rfl
@[simp] theorem State.setHalt_fontBase (e : Option CpuError) : (s.setHalt e).fontBase = s.fontBase := rfl

/-! ### setMem -/

@[simp] theorem State.setMem_mem (m : Memory) : (s.setMem m).mem = m := rfl
@[simp] theorem State.setMem_v (m : Memory) : (s.setMem m).v = s.v := rfl
@[simp] theorem State.setMem_i (m : Memory) : (s.setMem m).i = s.i := rfl
@[simp] theorem State.setMem_pc (m : Memory) : (s.setMem m).pc = s.pc := rfl
@[simp] theorem State.setMem_stack (m : Memory) : (s.setMem m).stack = s.stack := rfl
@[simp] theorem State.setMem_fb (m : Memory) : (s.setMem m).fb = s.fb := rfl
@[simp] theorem State.setMem_dt (m : Memory) : (s.setMem m).dt = s.dt := rfl
@[simp] theorem State.setMem_st (m : Memory) : (s.setMem m).st = s.st := rfl
@[simp] theorem State.setMem_key (m : Memory) : (s.setMem m).key = s.key := rfl
@[simp] theorem State.setMem_wait (m : Memory) : (s.setMem m).wait = s.wait := rfl
@[simp] theorem State.setMem_halt (m : Memory) : (s.setMem m).halt = s.halt := rfl
@[simp] theorem State.setMem_cfg (m : Memory) : (s.setMem m).cfg = s.cfg := rfl
@[simp] theorem State.setMem_draws (m : Memory) : (s.setMem m).draws = s.draws := rfl
@[simp] theorem State.setMem_reg (m : Memory) (y : Reg) : (s.setMem m).reg y = s.reg y := rfl
@[simp] theorem State.setMem_keyDown (m : Memory) (n : KeyNo) : (s.setMem m).keyDown n = s.keyDown n := rfl
@[simp] theorem State.setMem_fontBase (m : Memory) : (s.setMem m).fontBase = s.fontBase := rfl

/-! ### countDraw -/

@[simp] theorem State.countDraw_mem : (s.countDraw).mem = s.mem := rfl
@[simp] theorem State.countDraw_v : (s.countDraw).v = s.v := rfl
@[simp] theorem State.countDraw_i : (s.countDraw).i = s.i := rfl
@[simp] theorem State.countDraw_pc : (s.countDraw).pc = s.pc := rfl
@[simp] theorem State.countDraw_stack : (s.countDraw).stack = s.stack := rfl
@[simp] theorem State.countDraw_fb : (s.countDraw).fb = s.fb := rfl
@[simp] theorem State.countDraw_dt : (s.countDraw).dt = s.dt := rfl
@[simp] theorem State.countDraw_st : (s.countDraw).st = s.st := rfl
@[simp] theorem State.countDraw_key : (s.countDraw).key = s.key := rfl
@[simp] theorem State.countDraw_wait : (s.countDraw).wait = s.wait := rfl
@[simp] theorem State.countDraw_halt : (s.countDraw).halt = s.halt := rfl
@[simp] theorem State.countDraw_cfg : (s.countDraw).cfg = s.cfg := rfl
@[simp] theorem State.countDraw_draws : (s.countDraw).draws = s.draws + 1 := rfl
@[simp] theorem State.countDraw_reg (y : Reg) : (s.countDraw).reg y = s.reg y := rfl
@[simp] theorem State.countDraw_keyDown (n : KeyNo) : (s.countDraw).keyDown n = s.keyDown n := rfl
@[simp] theorem State.countDraw_byteAt (n : Nat) : (s.countDraw).byteAt n = s.byteAt n := rfl
@[simp] theorem State.countDraw_fontBase : (s.countDraw).fontBase = s.fontBase := rfl

/-! ### setBlock -/

@[simp] theorem State.setBlock_mem (bs : List Byte) : (s.setBlock bs).mem = s.mem := rfl
@[simp] theorem State.setBlock_v (bs : List Byte) : (s.setBlock bs).v = Vector.ofFn fun k => bs.getD k.val (s.reg k) := rfl
@[simp] theorem State.setBlock_i (bs : List Byte) : (s.setBlock bs).i = s.i := rfl
@[simp] theorem State.setBlock_pc (bs : List Byte) : (s.setBlock bs).pc = s.pc := rfl
@[simp] theorem State.setBlock_stack (bs : List Byte) : (s.setBlock bs).stack = s.stack := rfl
@[simp] theorem State.setBlock_fb (bs : List Byte) : (s.setBlock bs).fb = s.fb := rfl
@[simp] theorem State.setBlock_dt (bs : List Byte) : (s.setBlock bs).dt = s.dt := rfl
@[simp] theorem State.setBlock_st (bs : List Byte) : (s.setBlock bs).st = s.st := rfl
@[simp] theorem State.setBlock_key (bs : List Byte) : (s.setBlock bs).key = s.key := rfl
@[simp] theorem State.setBlock_wait (bs : List Byte) : (s.setBlock bs).wait = s.wait := rfl
@[simp] theorem State.setBlock_halt (bs : List Byte) : (s.setBlock bs).halt = s.halt := rfl
@[simp] theorem State.setBlock_cfg (bs : List Byte) : (s.setBlock bs).cfg = s.cfg := rfl
@[simp] theorem State.setBlock_draws (bs : List Byte) : (s.setBlock bs).draws = s.draws := rfl
@[simp] theorem State.setBlock_keyDown (bs : List Byte) (n : KeyNo) : (s.setBlock bs).keyDown n = s.keyDown n := rfl
@[simp] theorem State.setBlock_byteAt (bs : List Byte) (n : Nat) : (s.setBlock bs).byteAt n = s.byteAt n := rfl
@[simp] theorem State.setBlock_fontBase (bs : List Byte) : (s.setBlock bs).fontBase = s.fontBase := rfl

/-! ### advance -/

@[simp] theorem State.advance_mem : (s.advance).mem = s.mem := rfl
@[simp] theorem State.advance_v : (s.advance).v = s.v := rfl
@[simp] theorem State.advance_i : (s.advance).i = s.i := rfl
@[simp] theorem State.advance_pc : (s.advance).pc = s.pc + 2 := rfl
@[simp] theorem State.advance_stack : (s.advance).stack = s.stack := rfl
@[simp] theorem State.advance_fb : (s.advance).fb = s.fb := rfl
@[simp] theorem State.advance_dt : (s.advance).dt = s.dt := rfl
@[simp] theorem State.advance_st : (s.advance).st = s.st := rfl
@[simp] theorem State.advance_key : (s.advance).key = s.key := rfl
@[simp] theorem State.advance_wait : (s.advance).wait = s.wait := rfl
@[simp] theorem State.advance_halt : (s.advance).halt = s.halt := rfl
@[simp] theorem State.advance_cfg : (s.advance).cfg = s.cfg := rfl
@[simp] theorem State.advance_draws : (s.advance).draws = s.draws := rfl
@[simp] theorem State.advance_reg (y : Reg) : (s.advance).reg y = s.reg y := rfl
@[simp] theorem State.advance_keyDown (n : KeyNo) : (s.advance).keyDown n = s.keyDown n := rfl
@[simp] theorem State.advance_byteAt (n : Nat) : (s.advance).byteAt n = s.byteAt n := rfl
@[simp] theorem State.advance_fontBase : (s.advance).fontBase = s.fontBase := rfl

/-! ### skipNext -/

@[simp] theorem State.skipNext_mem : (s.skipNext).mem = s.mem := rfl
@[simp] theorem State.skipNext_v : (s.skipNext).v = s.v := rfl
@[simp] theorem State.skipNext_i : (s.skipNext).i = s.i := rfl
@[simp] theorem State.skipNext_pc : (s.skipNext).pc = s.pc + 4 := rfl
@[simp] theorem State.skipNext_stack : (s.skipNext).stack = s.stack := rfl
@[simp] theorem State.skipNext_fb : (s.skipNext).fb = s.fb := rfl
@[simp] theorem State.skipNext_dt : (s.skipNext).dt = s.dt := rfl
@[simp] theorem State.skipNext_st : (s.skipNext).st = s.st := rfl
@[simp] theorem State.skipNext_key : (s.skipNext).key = s.key := rfl
@[simp] theorem State.skipNext_wait : (s.skipNext).wait = s.wait := rfl
@[simp] theorem State.skipNext_halt : (s.skipNext).halt = s.halt := rfl
@[simp] theorem State.skipNext_cfg : (s.skipNext).cfg = s.cfg := rfl
@[simp] theorem State.skipNext_draws : (s.skipNext).draws = s.draws := rfl
@[simp] theorem State.skipNext_reg (y : Reg) : (s.skipNext).reg y = s.reg y := rfl
@[simp] theorem State.skipNext_keyDown (n : KeyNo) : (s.skipNext).keyDown n = s.keyDown n := rfl
@[simp] theorem State.skipNext_byteAt (n : Nat) : (s.skipNext).byteAt n = s.byteAt n := rfl
@[simp] theorem State.skipNext_fontBase : (s.skipNext).fontBase = s.fontBase := rfl

/-! ### skipIf -/

@[simp] theorem State.skipIf_mem (c : Bool) : (s.skipIf c).mem = s.mem := by cases c <;> rfl
@[simp] theorem State.skipIf_v (c : Bool) : (s.skipIf c).v = s.v := by cases c <;> rfl
@[simp] theorem State.skipIf_i (c : Bool) : (s.skipIf c).i = s.i := by cases c <;> rfl
@[simp] theorem State.skipIf_pc (c : Bool) : (s.skipIf c).pc = if c then s.pc + 4 else s.pc + 2 := by cases c <;> rfl
@[simp] theorem State.skipIf_stack (c : Bool) : (s.skipIf c).stack = s.stack := by cases c <;> rfl
@[simp] theorem State.skipIf_fb (c : Bool) : (s.skipIf c).fb = s.fb := by cases c <;> rfl
@[simp] theorem State.skipIf_dt (c : Bool) : (s.skipIf c).dt = s.dt := by cases c <;> rfl
@[simp] theorem State.skipIf_st (c : Bool) : (s.skipIf c).st = s.st := by cases c <;> rfl
@[simp] theorem State.skipIf_key (c : Bool) : (s.skipIf c).key = s.key := by cases c <;> rfl
@[simp] theorem State.skipIf_wait (c : Bool) : (s.skipIf c).wait = s.wait := by cases c <;> rfl
@[simp] theorem State.skipIf_halt (c : Bool) : (s.skipIf c).halt = s.halt := by cases c <;> rfl
@[simp] theorem State.skipIf_cfg (c : Bool) : (s.skipIf c).cfg = s.cfg := by cases c <;> rfl
@[simp] theorem State.skipIf_draws (c : Bool) : (s.skipIf c).draws = s.draws := by cases c <;> rfl
@[simp] theorem State.skipIf_reg (c : Bool) (y : Reg) : (s.skipIf c).reg y = s.reg y := by cases c <;> rfl
@[simp] theorem State.skipIf_keyDown (c : Bool) (n : KeyNo) : (s.skipIf c).keyDown n = s.keyDown n := by cases c <;> rfl
@[simp] theorem State.skipIf_byteAt (c : Bool) (n : Nat) : (s.skipIf c).byteAt n = s.byteAt n := by cases c <;> rfl
@[simp] theorem State.skipIf_fontBase (c : Bool) : (s.skipIf c).fontBase = s.fontBase := by cases c <;> rfl

/-! ### raise -/

@[simp] theorem State.raise_mem (e : CpuError) : (s.raise e).mem = s.mem := rfl
@[simp] theorem State.raise_v (e : CpuError) : (s.raise e).v = s.v := rfl
@[simp] theorem State.raise_i (e : CpuError) : (s.raise e).i = s.i := rfl
@[simp] theorem State.raise_pc (e : CpuError) : (s.raise e).pc = s.pc := rfl
@[simp] theorem State.raise_stack (e : CpuError) : (s.raise e).stack = s.stack := rfl
@[simp] theorem State.raise_fb (e : CpuError) : (s.raise e).fb = s.fb := rfl
@[simp] theorem State.raise_dt (e : CpuError) : (s.raise e).dt = s.dt := rfl
@[simp] theorem State.raise_st (e : CpuError) : (s.raise e).st = s.st := rfl
@[simp] theorem State.raise_key (e : CpuError) : (s.raise e).key = s.key := rfl
@[simp] theorem State.raise_wait (e : CpuError) : (s.raise e).wait = s.wait := rfl
@[simp] theorem State.raise_halt (e : CpuError) : (s.raise e).halt = some e := rfl
@[simp] theorem State.raise_cfg (e : CpuError) : (s.raise e).cfg = s.cfg := rfl
@[simp] theorem State.raise_draws (e : CpuError) : (s.raise e).draws = s.draws := rfl
@[simp] theorem State.raise_reg (e : CpuError) (y : Reg) : (s.raise e).reg y = s.reg y := rfl
@[simp] theorem State.raise_keyDown (e : CpuError) (n : KeyNo) : (s.raise e).keyDown n = s.keyDown n := rfl
@[simp] theorem State.raise_byteAt (e : CpuError) (n : Nat) : (s.raise e).byteAt n = s.byteAt n := rfl
@[simp] theorem State.raise_fontBase (e : CpuError) : (s.raise e).fontBase = s.fontBase := rfl

/-! ### poke -/

@[simp] theorem State.poke_mem (a : Nat) (b : Byte) : (s.poke a b).mem = memPut s.fontBase s.mem a b := rfl
@[simp] theorem State.poke_v (a : Nat) (b : Byte) : (s.poke a b).v = s.v := rfl
@[simp] theorem State.poke_i (a : Nat) (b : Byte) : (s.poke a b).i = s.i := rfl
@[simp] theorem State.poke_pc (a : Nat) (b : Byte) : (s.poke a b).pc = s.pc := rfl
@[simp] theorem State.poke_stack (a : Nat) (b : Byte) : (s.poke a b).stack = s.stack := rfl
@[simp] theorem State.poke_fb (a : Nat) (b : Byte) : (s.poke a b).fb = s.fb := rfl
@[simp] theorem State.poke_dt (a : Nat) (b : Byte) : (s.poke a b).dt = s.dt := rfl
@[simp] theorem State.poke_st (a : Nat) (b : Byte) : (s.poke a b).st = s.st := rfl
@[simp] theorem State.poke_key (a : Nat) (b : Byte) : (s.poke a b).key = s.key := rfl
@[simp] theorem State.poke_wait (a : Nat) (b : Byte) : (s.poke a b).wait = s.wait := rfl
@[simp] theorem State.poke_halt (a : Nat) (b : Byte) : (s.poke a b).halt = s.halt := rfl
@[simp] theorem State.poke_cfg (a : Nat) (b : Byte) : (s.poke a b).cfg = s.cfg := rfl
@[simp] theorem State.poke_draws (a : Nat) (b : Byte) : (s.poke a b).draws = s.draws := rfl
@[simp] theorem State.poke_reg (a : Nat) (b : Byte) (y : Reg) : (s.poke a b).reg y = s.reg y := rfl
@[simp] theorem State.poke_keyDown (a : Nat) (b : Byte) (n : KeyNo) : (s.poke a b).keyDown n = s.keyDown n := rfl
@[simp] theorem State.poke_fontBase (a : Nat) (b : Byte) : (s.poke a b).fontBase = s.fontBase := rfl

/-! ### logicFlag -/

@[simp] theorem State.logicFlag_mem : (s.logicFlag).mem = s.mem := by unfold State.logicFlag; split <;> rfl
@[simp] theorem State.logicFlag_i : (s.logicFlag).i = s.i := by unfold State.logicFlag; split <;> rfl
@[simp] theorem State.logicFlag_pc : (s.logicFlag).pc = s.pc := by unfold State.logicFlag; split <;> rfl
@[simp] theorem State.logicFlag_stack : (s.logicFlag).stack = s.stack := by unfold State.logicFlag; split <;> rfl
@[simp] theorem State.logicFlag_fb : (s.logicFlag).fb = s.fb := by unfold State.logicFlag; split <;> rfl
@[simp] theorem State.logicFlag_dt : (s.logicFlag).dt = s.dt := by unfold State.logicFlag; split <;> rfl
@[simp] theorem State.logicFlag_st : (s.logicFlag).st = s.st := by unfold State.logicFlag; split <;> rfl
@[simp] theorem State.logicFlag_key : (s.logicFlag).key = s.key := by unfold State.logicFlag; split <;> rfl
@[simp] theorem State.logicFlag_wait : (s.logicFlag).wait = s.wait := by unfold State.logicFlag; split <;> rfl
@[simp] theorem State.logicFlag_halt : (s.logicFlag).halt = s.halt := by unfold State.logicFlag; split <;> rfl
@[simp] theorem State.logicFlag_cfg : (s.logicFlag).cfg = s.cfg := by unfold State.logicFlag; split <;> rfl
@[simp] theorem State.logicFlag_draws : (s.logicFlag).draws = s.draws := by unfold State.logicFlag; split <;> rfl
@[simp] theorem State.logicFlag_keyDown (n : KeyNo) : (s.logicFlag).keyDown n = s.keyDown n := by unfold State.logicFlag; split <;> rfl
@[simp] theorem State.logicFlag_byteAt (n : Nat) : (s.logicFlag).byteAt n = s.byteAt n := by unfold State.logicFlag; split <;> rfl
@[simp] theorem State.logicFlag_fontBase : (s.logicFlag).fontBase = s.fontBase := by unfold State.logicFlag; split <;> rfl

/-! ### stepIndex -/

@[simp] theorem State.stepIndex_mem (x : Reg) : (s.stepIndex x).mem = s.mem := by unfold State.stepIndex; split <;> rfl
@[simp] theorem State.stepIndex_v (x : Reg) : (s.stepIndex x).v = s.v := by unfold State.stepIndex; split <;> rfl
@[simp] theorem State.stepIndex_pc (x : Reg) : (s.stepIndex x).pc = s.pc := by unfold State.stepIndex; split <;> rfl
@[simp] theorem State.stepIndex_stack (x : Reg) : (s.stepIndex x).stack = s.stack := by unfold State.stepIndex; split <;> rfl
@[simp] theorem State.stepIndex_fb (x : Reg) : (s.stepIndex x).fb = s.fb := by unfold State.stepIndex; split <;> rfl
@[simp] theorem State.stepIndex_dt (x : Reg) : (s.stepIndex x).dt = s.dt := by unfold State.stepIndex; split <;> rfl
@[simp] theorem State.stepIndex_st (x : Reg) : (s.stepIndex x).st = s.st := by unfold State.stepIndex; split <;> rfl
@[simp] theorem State.stepIndex_key (x : Reg) : (s.stepIndex x).key = s.key := by unfold State.stepIndex; split <;> rfl
@[simp] theorem State.stepIndex_wait (x : Reg) : (s.stepIndex x).wait = s.wait := by unfold State.stepIndex; split <;> rfl
@[simp] theorem State.stepIndex_halt (x : Reg) : (s.stepIndex x).halt = s.halt := by unfold State.stepIndex; split <;> rfl
@[simp] theorem State.stepIndex_cfg (x : Reg) : (s.stepIndex x).cfg = s.cfg := by unfold State.stepIndex; split <;> rfl
@[simp] theorem State.stepIndex_draws (x : Reg) : (s.stepIndex x).draws = s.draws := by unfold State.stepIndex; split <;> rfl
@[simp] theorem State.stepIndex_reg (x : Reg) (y : Reg) : (s.stepIndex x).reg y = s.reg y := by unfold State.stepIndex; split <;> rfl
@[simp] theorem State.stepIndex_keyDown (x : Reg) (n : KeyNo) : (s.stepIndex x).keyDown n = s.keyDown n := by unfold State.stepIndex; split <;> rfl
@[simp] theorem State.stepIndex_byteAt (x : Reg) (n : Nat) : (s.stepIndex x).byteAt n = s.byteAt n := by unfold State.stepIndex; split <;> rfl
@[simp] theorem State.stepIndex_fontBase (x : Reg) : (s.stepIndex x).fontBase = s.fontBase := by unfold State.stepIndex; split <;> rfl

/-! ### Accessors of the field an update writes -/

@[simp] theorem State.setReg_reg (x y : Reg) (b : Byte) :
    (s.setReg x b).reg y = if y = x then b else s.reg y := by
  simp only [State.reg, State.setReg, Vector.getElem_set, Fin.ext_iff, eq_comm]

@[simp] theorem State.setFlag_reg (y : Reg) (b : Byte) :
    (s.setFlag b).reg y = if y = regVF then b else s.reg y :=
  s.setReg_reg regVF y b

@[simp] theorem State.setBlock_reg (bs : List Byte) (y : Reg) :
    (s.setBlock bs).reg y = bs.getD y.val (s.reg y) := by
  simp only [State.setBlock, State.reg, Vector.getElem_ofFn]

@[simp] theorem State.setKey_keyDown (k n : KeyNo) (d : Bool) :
    (s.setKey k d).keyDown n = if n = k then d else s.keyDown n := by
  simp only [State.keyDown, State.setKey, Vector.getElem_set, Fin.ext_iff, eq_comm]

theorem State.logicFlag_reg (y : Reg) :
    s.logicFlag.reg y = if s.cfg.logicVf = .reset ∧ y = regVF then 0x00 else s.reg y := by
  unfold State.logicFlag
  split <;> simp [*]

theorem State.stepIndex_i (x : Reg) :
    (s.stepIndex x).i =
      if s.cfg.ldstI = .increment then BitVec.ofNat 16 (s.i.toNat + x.val + 1) else s.i := by
  unfold State.stepIndex
  split <;> simp [*]

theorem State.logicFlag_of_unchanged (h : s.cfg.logicVf = .unchanged) : s.logicFlag = s := by
  simp only [State.logicFlag, h]

theorem State.logicFlag_of_reset (h : s.cfg.logicVf = .reset) : s.logicFlag = s.setFlag 0x00 := by
  simp only [State.logicFlag, h]

theorem State.stepIndex_of_increment (x : Reg) (h : s.cfg.ldstI = .increment) :
    s.stepIndex x = s.setI (BitVec.ofNat 16 (s.i.toNat + x.val + 1)) := by
  simp only [State.stepIndex, h]

theorem State.stepIndex_of_unchanged (x : Reg) (h : s.cfg.ldstI = .unchanged) : s.stepIndex x = s := by
  simp only [State.stepIndex, h]

/-- Two states whose registers read alike have the same register file. -/
theorem regs_ext {s t : State} (h : ∀ y, s.reg y = t.reg y) : s.v = t.v := by
  apply Vector.ext
  intro n hn
  exact h ⟨n, hn⟩

end Sys2Proof.Machine
end

