-- ==== Sys2Proof/Laws/Memory.lean ====
section
/-! SUPPORT. The laws of memory as data: read after write, the canonical form is kept, and equal reads
mean equal memories. -/

namespace Sys2Proof.Machine

variable {base lo : Nat} {m : Memory}

/-! ### The canonical form -/

theorem memWfFrom_cons {a : Nat} {b : Byte} :
    memWfFrom base lo ((a, b) :: m) = true ↔
      lo ≤ a ∧ a < memoryBytes ∧ b ≠ unlistedByte base a ∧ memWfFrom base (a + 1) m = true := by
  simp only [memWfFrom, Bool.and_eq_true, decide_eq_true_eq, and_assoc]

theorem memWfFrom_weaken {lo' : Nat} (h : memWfFrom base lo m = true) (hlo : lo' ≤ lo) :
    memWfFrom base lo' m = true := by
  cases m with
  | nil => rfl
  | cons c m =>
    obtain ⟨a, b⟩ := c
    rw [memWfFrom_cons] at h ⊢
    exact ⟨hlo.trans h.1, h.2⟩

/-- An address below the first possible one is not listed. -/
theorem listedByte_of_lt {a : Nat} (h : memWfFrom base lo m = true) (ha : a < lo) : listedByte m a = none := by
  induction m generalizing lo with
  | nil => rfl
  | cons c m ih =>
    obtain ⟨a', b⟩ := c
    rw [memWfFrom_cons] at h
    have hne : a' ≠ a := by omega
    simp only [listedByte, hne, if_false]
    exact ih h.2.2.2 (by omega)

/-- Every listed address lies in the address space. -/
theorem memWfFrom_lt {c : Host.Cell} (h : memWfFrom base lo m = true) (hc : c ∈ m) : c.1 < memoryBytes := by
  induction m generalizing lo with
  | nil => cases hc
  | cons d m ih =>
    obtain ⟨a, b⟩ := d
    rw [memWfFrom_cons] at h
    rcases List.mem_cons.mp hc with rfl | hc
    · exact h.2.1
    · exact ih h.2.2.2 hc

/-! ### Reading after one write -/

/-- A write leaves every other address alone, whatever the list. -/
theorem memGet_memPut_ne {a a' : Nat} {b : Byte} (h : a' ≠ a) :
    memGet base (memPut base m a b) a' = memGet base m a' := by
  have key : listedByte (memPut base m a b) a' = listedByte m a' := by
    induction m with
    | nil =>
      by_cases hb : b = unlistedByte base a
      · simp [memPut, hb]
      · simp [memPut, hb, listedByte, h.symm]
    | cons c m ih =>
      obtain ⟨d, e⟩ := c
      by_cases hlt : d < a
      · simp only [memPut, hlt, if_true, listedByte, ih]
      · by_cases heq : d = a
        · subst heq
          by_cases hb : b = unlistedByte base d
          · simp [memPut, hb, listedByte, h.symm]
          · simp [memPut, hb, listedByte, h.symm]
        · by_cases hb : b = unlistedByte base a
          · simp [memPut, hlt, heq, hb]
          · simp [memPut, hlt, heq, hb, listedByte, h.symm]
  simp only [memGet, key]

/-- A read after a write to the same address gives the byte written. -/
theorem memGet_memPut_self {a : Nat} {b : Byte} (hwf : memWfFrom base lo m = true) :
    memGet base (memPut base m a b) a = b := by
  induction m generalizing lo with
  | nil =>
    by_cases hb : b = unlistedByte base a
    · simp [memPut, hb, memGet, listedByte]
    · simp [memPut, hb, memGet, listedByte]
  | cons c m ih =>
    obtain ⟨d, e⟩ := c
    rw [memWfFrom_cons] at hwf
    by_cases hlt : d < a
    · have hne : d ≠ a := by omega
      have := ih hwf.2.2.2
      simpa only [memPut, hlt, if_true, memGet, listedByte, hne, if_false] using this
    · have hout : listedByte m a = none := listedByte_of_lt hwf.2.2.2 (by omega)
      by_cases heq : d = a
      · by_cases hb : b = unlistedByte base a
        · simp [memPut, heq, hb, memGet, hout]
        · simp [memPut, heq, hb, memGet, listedByte]
      · by_cases hb : b = unlistedByte base a
        · simp [memPut, hlt, heq, hb, memGet, listedByte, hout]
        · simp [memPut, hlt, heq, hb, memGet, listedByte]

theorem memGet_memPut {a : Nat} {b : Byte} (hwf : memWfFrom base lo m = true) (a' : Nat) :
    memGet base (memPut base m a b) a' = if a' = a then b else memGet base m a' := by
  split
  · next h => rw [h, memGet_memPut_self hwf]
  · next h => exact memGet_memPut_ne h

/-! ### A write keeps the canonical form -/

theorem memPut_wfFrom {a : Nat} {b : Byte} (hwf : memWfFrom base lo m = true) (hlo : lo ≤ a)
    (ha : a < memoryBytes) : memWfFrom base lo (memPut base m a b) = true := by
  induction m generalizing lo with
  | nil =>
    by_cases hb : b = unlistedByte base a
    · simp [memPut, hb, memWfFrom]
    · simp [memPut, hb, memWfFrom, hlo, ha]
  | cons c m ih =>
    obtain ⟨d, e⟩ := c
    have h := memWfFrom_cons.mp hwf
    by_cases hlt : d < a
    · simp only [memPut, hlt, if_true]
      exact memWfFrom_cons.mpr ⟨h.1, h.2.1, h.2.2.1, ih h.2.2.2 hlt⟩
    · by_cases heq : d = a
      · subst heq
        by_cases hb : b = unlistedByte base d
        · simpa [memPut, hb] using memWfFrom_weaken h.2.2.2 (by omega)
        · simpa [memPut, hb] using memWfFrom_cons.mpr ⟨hlo, ha, hb, h.2.2.2⟩
      · by_cases hb : b = unlistedByte base a
        · simpa [memPut, hlt, heq, hb] using hwf
        · have hrest := memWfFrom_cons (lo := a + 1).mpr ⟨by omega, h.2⟩
          simpa [memPut, hlt, heq, hb] using memWfFrom_cons.mpr ⟨hlo, ha, hb, hrest⟩

theorem memPut_wf {a : Nat} {b : Byte} (hwf : Memory.wf base m = true) (ha : a < memoryBytes) :
    Memory.wf base (memPut base m a b) = true :=
  memPut_wfFrom hwf (Nat.zero_le a) ha

theorem memPutAll_wf {rs : List Nat} {bs : List Byte} (hwf : Memory.wf base m = true)
    (hrs : ∀ r ∈ rs, r < memoryBytes) : Memory.wf base (memPutAll base m rs bs) = true := by
  induction rs generalizing m bs with
  | nil => simpa [memPutAll] using hwf
  | cons r rs ih =>
    cases bs with
    | nil => simpa [memPutAll] using hwf
    | cons b bs =>
      exact ih (memPut_wf hwf (hrs r (by simp))) fun r' h => hrs r' (by simp [h])

/-! ### Which addresses a write lists -/

theorem mem_memPut {a : Nat} {b : Byte} {c : Host.Cell} (h : c ∈ memPut base m a b) : c.1 = a ∨ c ∈ m := by
  induction m with
  | nil =>
    by_cases hb : b = unlistedByte base a
    · simp [memPut, hb] at h
    · simp [memPut, hb] at h
      simp [h]
  | cons d m ih =>
    obtain ⟨d, e⟩ := d
    by_cases hlt : d < a
    · simp only [memPut, hlt, if_true, List.mem_cons] at h
      rcases h with h | h
      · simp [h]
      · rcases ih h with h | h <;> simp [h]
    · by_cases heq : d = a <;> by_cases hb : b = unlistedByte base a <;>
        simp [memPut, hlt, heq, hb] at h <;> aesop

theorem mem_memPutAll {rs : List Nat} {bs : List Byte} {c : Host.Cell}
    (h : c ∈ memPutAll base m rs bs) : c.1 ∈ rs ∨ c ∈ m := by
  induction rs generalizing m bs with
  | nil => simpa [memPutAll] using h
  | cons r rs ih =>
    cases bs with
    | nil => exact .inr (by simpa [memPutAll] using h)
    | cons b bs =>
      rcases ih h with h | h
      · exact .inl (by simp [h])
      · rcases mem_memPut h with h | h
        · exact .inl (by simp [h])
        · exact .inr h

/-! ### Reading after several writes -/

theorem memGet_memPutAll_of_notMem {rs : List Nat} {bs : List Byte} {a : Nat} (h : a ∉ rs) :
    memGet base (memPutAll base m rs bs) a = memGet base m a := by
  induction rs generalizing m bs with
  | nil => rfl
  | cons r rs ih =>
    cases bs with
    | nil => rfl
    | cons b bs =>
      simp only [List.mem_cons, not_or] at h
      rw [memPutAll, ih h.2, memGet_memPut_ne h.1]

/-- The last write to an address stands: where no later byte of the list goes to the address of byte `k`,
that address reads as byte `k`. -/
theorem memGet_memPutAll_last {rs : List Nat} {bs : List Byte} (hwf : Memory.wf base m = true)
    (hrs : ∀ r ∈ rs, r < memoryBytes) (hlen : rs.length = bs.length) (k : Nat) (hk : k < rs.length)
    (hlast : ∀ j (hj : j < rs.length), k < j → rs[j] ≠ rs[k]) :
    memGet base (memPutAll base m rs bs) rs[k] = bs[k] := by
  induction rs generalizing m bs k with
  | nil => simp at hk
  | cons r rs ih =>
    cases bs with
    | nil => simp at hlen
    | cons b bs =>
      cases k with
      | zero =>
        simp only [List.getElem_cons_zero, memPutAll]
        rw [memGet_memPutAll_of_notMem]
        · exact memGet_memPut_self hwf
        · intro hm
          obtain ⟨j, hj, he⟩ := List.getElem_of_mem hm
          exact hlast (j + 1) (by simpa using hj) (by omega) (by simpa using he)
      | succ k =>
        simp only [List.getElem_cons_succ, memPutAll]
        refine ih (memPut_wf hwf (hrs r (by simp))) (fun r' h => hrs r' (by simp [h])) (by simpa using hlen) k
          (by simpa using hk) fun j hj hlt => ?_
        have hne := hlast (j + 1) (by simpa using hj) (by omega)
        rwa [List.getElem_cons_succ, List.getElem_cons_succ] at hne

@[simp] theorem memGet_nil (a : Nat) : memGet base [] a = unlistedByte base a := rfl

/-! ### Memory of a state -/

@[simp] theorem State.setMem_byteAt (s : State) (m : Memory) (a : Nat) :
    (s.setMem m).byteAt a = memGet s.fontBase m a := rfl

theorem State.poke_byteAt_ne {s : State} {a a' : Nat} {b : Byte} (h : a' ≠ a) :
    (s.poke a b).byteAt a' = s.byteAt a' :=
  memGet_memPut_ne h

theorem State.poke_byteAt {s : State} {a : Nat} {b : Byte} (hwf : Memory.wf s.fontBase s.mem = true)
    (a' : Nat) : (s.poke a b).byteAt a' = if a' = a then b else s.byteAt a' :=
  memGet_memPut hwf a'

end Sys2Proof.Machine
end

