-- ==== Sys2Proof/Laws/Ops.lean ====
section
/-! SUPPORT. One lemma for each shared operation that says everything it can do. -/

namespace Sys2Proof.Machine

/-! ### Ending an instruction -/

@[simp] theorem finish_ok (s t : State) : finish s (.ok t) = .next t := rfl

@[simp] theorem finish_error (s : State) (e : CpuError) : finish s (.error e) = .next (s.raise e) := rfl

/-- An instruction that may raise ends in its own state, or in the state before it, halted. -/
theorem finish_cases {s t : State} {r : Except CpuError State} (h : finish s r = .next t) :
    r = .ok t ∨ ∃ e, r = .error e ∧ t = s.raise e := by
  cases r with
  | ok u => exact .inl (by simpa using h)
  | error e => exact .inr ⟨e, rfl, by simpa using h.symm⟩

/-- The same for an instruction whose last part is a function of what it read. -/
theorem finish_map_cases {α : Type} {s t : State} {r : Except CpuError α} {f : α → State}
    (h : finish s (r.map f) = .next t) :
    (∃ a, r = .ok a ∧ t = f a) ∨ ∃ e, r = .error e ∧ t = s.raise e := by
  cases r with
  | ok a => exact .inl ⟨a, rfl, by simpa [Except.map] using h.symm⟩
  | error e => exact .inr ⟨e, rfl, by simpa [Except.map] using h.symm⟩

@[simp] theorem finish_map_ok {α : Type} (s : State) (a : α) (f : α → State) :
    finish s ((Except.ok a : Except CpuError α).map f) = .next (f a) := rfl

@[simp] theorem finish_map_error {α : Type} (s : State) (e : CpuError) (f : α → State) :
    finish s ((Except.error e : Except CpuError α).map f) = .next (s.raise e) := rfl

/-! ### Addresses -/

theorem resolve_of_le {c : Config} {a : Nat} (h : a ≤ 0xFFF) : resolve c a = .ok a := by
  simp only [resolve, h, if_true]

/-- A resolved address lies in the address space. -/
theorem resolve_lt {c : Config} {a r : Nat} (h : resolve c a = .ok r) : r < memoryBytes := by
  unfold resolve at h
  unfold memoryBytes
  split at h
  · cases h; omega
  · split at h
    · cases h; omega
    · cases h; omega
    · cases h

/-- An address fails to resolve only above 0xFFF under `P_ADDR = Fault`. -/
theorem resolve_error {c : Config} {a : Nat} {e : CpuError} (h : resolve c a = .error e) :
    0xFFF < a ∧ c.addr = .fault ∧ e = .addressOutOfRange a := by
  unfold resolve at h
  split at h
  · cases h
  · split at h <;> cases h
    exact ⟨by omega, by assumption, rfl⟩

/-- A store's address resolves to one it may write. -/
theorem resolveStore_ok {c : Config} {a r : Nat} :
    resolveStore c a = .ok r ↔ resolve c a = .ok r ∧ ¬ (r < 0x200 ∧ c.reservedWrite = .fault) := by
  unfold resolveStore
  cases h : resolve c a with
  | error e => simp
  | ok q =>
    by_cases hq : q < 0x200 ∧ c.reservedWrite = .fault
    · simp only [if_pos hq]
      refine ⟨fun h => (nomatch h), fun ⟨h, hn⟩ => ?_⟩
      cases h
      exact absurd hq hn
    · simp only [hq, if_false, Except.ok.injEq]
      constructor
      · rintro rfl
        exact ⟨rfl, hq⟩
      · exact fun h => h.1

theorem resolveAll_length {f : Nat → Except CpuError Nat} {a n : Nat} {rs : List Nat}
    (h : resolveAll f a n = .ok rs) : rs.length = n := by
  induction n generalizing a rs with
  | zero => cases h; rfl
  | succ n ih =>
    unfold resolveAll at h
    split at h
    · cases h
    · split at h
      · cases h
      · next hrs => cases h; simp [ih hrs]

/-- Every address of a list is one `f` gave, for the byte at that offset. -/
theorem resolveAll_getElem {f : Nat → Except CpuError Nat} {a n : Nat} {rs : List Nat}
    (h : resolveAll f a n = .ok rs) (k : Nat) (hk : k < rs.length) : f (a + k) = .ok rs[k] := by
  induction n generalizing a rs k with
  | zero => cases h; simp at hk
  | succ n ih =>
    unfold resolveAll at h
    split at h
    · cases h
    · next r hr =>
      split at h
      · cases h
      · next rs' hrs =>
        cases h
        cases k with
        | zero => exact hr
        | succ k =>
          have := ih hrs k (by simpa using hk)
          simpa [Nat.add_assoc, Nat.add_comm 1 k] using this

theorem resolveAll_mem {f : Nat → Except CpuError Nat} {a n r : Nat} {rs : List Nat}
    (h : resolveAll f a n = .ok rs) (hr : r ∈ rs) : ∃ k, f (a + k) = .ok r := by
  obtain ⟨k, hk, rfl⟩ := List.getElem_of_mem hr
  exact ⟨k, resolveAll_getElem h k hk⟩

/-- Where every byte's address is given, the access's addresses are those, in order. -/
theorem resolveAll_ok {f : Nat → Except CpuError Nat} {a n : Nat} {g : Nat → Nat}
    (h : ∀ k < n, f (a + k) = .ok (g k)) : resolveAll f a n = .ok ((List.range n).map g) := by
  induction n generalizing a g with
  | zero => rfl
  | succ n ih =>
    have h0 := h 0 (by omega)
    have hs := ih (a := a + 1) (g := fun k => g (k + 1)) fun k hk => by
      have := h (k + 1) (by omega)
      rwa [Nat.add_assoc, Nat.add_comm 1 k]
    unfold resolveAll
    rw [Nat.add_zero] at h0
    simp only [h0, hs, List.range_succ_eq_map, List.map_cons, List.map_map]
    rfl

/-- The access's error is that of the first byte whose address fails. -/
theorem resolveAll_error {f : Nat → Except CpuError Nat} {a n k : Nat} {e : CpuError}
    (hk : k < n) (hok : ∀ j < k, ∃ r, f (a + j) = .ok r) (he : f (a + k) = .error e) :
    resolveAll f a n = .error e := by
  induction n generalizing a k with
  | zero => omega
  | succ n ih =>
    unfold resolveAll
    cases k with
    | zero =>
      rw [Nat.add_zero] at he
      simp only [he]
    | succ k =>
      obtain ⟨r, hr⟩ := hok 0 (by omega)
      rw [Nat.add_zero] at hr
      have := ih (a := a + 1) (k := k) (by omega)
        (fun j hj => by
          obtain ⟨r, hr⟩ := hok (j + 1) (by omega)
          exact ⟨r, by rwa [Nat.add_assoc, Nat.add_comm 1 j]⟩)
        (by rwa [Nat.add_assoc, Nat.add_comm 1 k])
      simp only [hr, this]

/-! ### Memory access -/

/-- A read that succeeds gives, for each offset, the byte of that offset's resolved address. -/
theorem memRead_cases {s : State} {a n : Nat} {bs : List Byte} (h : memRead s a n = .ok bs) :
    ∃ rs, resolveAll (resolve s.cfg) a n = .ok rs ∧ bs = rs.map s.byteAt := by
  unfold memRead at h
  split at h
  · cases h
  · next rs hrs => exact ⟨rs, hrs, by cases h; rfl⟩

theorem memRead_length {s : State} {a n : Nat} {bs : List Byte} (h : memRead s a n = .ok bs) :
    bs.length = n := by
  obtain ⟨rs, hrs, rfl⟩ := memRead_cases h
  simpa using resolveAll_length hrs

/-- A write that succeeds writes memory and nothing else, at resolved addresses it may write. -/
theorem memWrite_cases {s t : State} {a : Nat} {bs : List Byte} (h : memWrite s a bs = .ok t) :
    ∃ rs, resolveAll (resolveStore s.cfg) a bs.length = .ok rs ∧
      t = s.setMem (memPutAll s.fontBase s.mem rs bs) ∧
      ∀ r ∈ rs, r < memoryBytes ∧ (s.cfg.reservedWrite = .fault → programBase ≤ r) := by
  unfold memWrite at h
  split at h
  · cases h
  · next rs hrs =>
    refine ⟨rs, hrs, by cases h; rfl, fun r hr => ?_⟩
    obtain ⟨k, hk⟩ := resolveAll_mem hrs hr
    obtain ⟨hres, hok⟩ := resolveStore_ok.mp hk
    exact ⟨resolve_lt hres, fun hf => by unfold programBase; exact not_lt.mp fun hlt => hok ⟨hlt, hf⟩⟩

/-! ### The stack -/

theorem push_cases {s t : State} {v : Word} (h : push s v = .ok t) :
    s.stack.length ≠ 16 ∧ t = s.setStack (s.stack ++ [v]) := by
  unfold push at h
  split at h
  · cases h
  · next hne => exact ⟨hne, by cases h; rfl⟩

theorem pop_cases {s : State} {p : Word × State} (h : pop s = .ok p) :
    s.stack.getLast? = some p.1 ∧ p.2 = s.setStack s.stack.dropLast := by
  unfold pop at h
  split at h
  · cases h
  · next v hv =>
    cases h
    exact ⟨hv, rfl⟩

/-! ### Operands -/

theorem keyIndex_of_le {c : Config} {v : Byte} (h : v.toNat ≤ 15) :
    keyIndex c v = .ok (Fin.ofNat 16 v.toNat) := by
  simp only [keyIndex, h, if_true]

theorem fontDigit_of_le {c : Config} {v : Byte} (h : v.toNat ≤ 15) : fontDigit c v = .ok v.toNat := by
  simp only [fontDigit, h, if_true]

theorem regBlock_length (s : State) (x : Reg) : (regBlock s x).length = x.val + 1 := by
  simp only [regBlock, List.length_take, Vector.length_toList]
  omega

theorem regBlock_getElem (s : State) (x : Reg) (k : Nat) (hk : k < (regBlock s x).length) :
    (regBlock s x)[k] = s.reg ⟨k, by rw [regBlock_length] at hk; omega⟩ := by
  simp only [regBlock, List.getElem_take, Vector.getElem_toList, State.reg]

theorem bcdDigits_length (v : Byte) : (bcdDigits v).length = 3 := rfl

end Sys2Proof.Machine
end

