-- ==== Sys2Proof/Laws/Display.lean ====
section
/-! SUPPORT. The laws of the display: a pixel after a flip, and what drawing one row of a sprite does. -/

namespace Sys2Proof.Machine

/-! ### One pixel -/

@[simp] theorem pixelAt_darkRaster (px : Fin 64) (py : Fin 32) : pixelAt darkRaster px py = false := by
  simp [pixelAt, darkRaster]

theorem pixelAt_flipPixel (fb : Raster) (x px : Fin 64) (y py : Fin 32) :
    pixelAt (flipPixel fb x y) px py =
      if px = x ∧ py = y then !pixelAt fb px py else pixelAt fb px py := by
  unfold flipPixel pixelAt
  by_cases hy : py = y
  · subst hy
    by_cases hx : px = x
    · subst hx
      simp
    · have hne : x.val ≠ px.val := fun h => hx (Fin.ext h.symm)
      simp [hx, Vector.getElem_set_ne _ _ hne]
  · have hne : y.val ≠ py.val := fun h => hy (Fin.ext h.symm)
    simp [hy, Vector.getElem_set_ne _ _ hne]

/-- Two rasters are equal where every pixel is. -/
theorem raster_ext {fb fb' : Raster} (h : ∀ px py, pixelAt fb px py = pixelAt fb' px py) : fb = fb' := by
  apply Vector.ext
  intro y hy
  apply Vector.ext
  intro x hx
  exact h ⟨x, hx⟩ ⟨y, hy⟩

/-! ### Where a sprite's pixels land -/

/-- `Place` in the terms the claims use. -/
theorem placePixel_eq_some {c : Config} {x0 y0 : Byte} {i j : Nat} {px : Fin 64} {py : Fin 32} :
    placePixel c x0 y0 i j = some (px, py) ↔ Lands c x0.toNat y0.toNat i j px py := by
  unfold placePixel Lands
  cases c.spriteEdge with
  | clip =>
    dsimp only
    split
    · next h =>
      simp only [Option.some.injEq, Prod.mk.injEq, Fin.ext_iff, Fin.ofNat_eq_cast, Fin.val_natCast]
      omega
    · next h =>
      simp only [reduceCtorEq, false_iff]
      omega
  | wrap =>
    simp only [Option.some.injEq, Prod.mk.injEq, Fin.ext_iff, Fin.ofNat_eq_cast, Fin.val_natCast]
    omega

/-- No two pixels of one sprite land on the same pixel of the display: a sprite has 8 columns and at most
15 rows. -/
theorem Lands.unique {c : Config} {x0 y0 i i' j j' : Nat} {px : Fin 64} {py : Fin 32}
    (h : Lands c x0 y0 i j px py) (h' : Lands c x0 y0 i' j' px py) (hi : i < 16) (hi' : i' < 16)
    (hj : j < 8) (hj' : j' < 8) : i = i' ∧ j = j' := by
  unfold Lands at h h'
  cases hc : c.spriteEdge <;> rw [hc] at h h' <;> dsimp only at h h' <;> omega

/-! ### Drawing a row -/

/-- The set pixels of row `i` in the columns `cols` land on `(px, py)`. -/
def RowCovers (c : Config) (x0 y0 : Byte) (i : Nat) (row : Byte) (cols : List Nat) (px : Fin 64)
    (py : Fin 32) : Prop :=
  ∃ j ∈ cols, row.getLsbD (7 - j) = true ∧ Lands c x0.toNat y0.toNat i j px py

/-- The columns `cols` of sprite row `i`, drawn in order. -/
def drawCols (c : Config) (x0 y0 : Byte) (i : Nat) (row : Byte) (cols : List Nat) (r : Raster × Bool) :
    Raster × Bool :=
  cols.foldl (fun r j => if row.getLsbD (7 - j) then drawPixel c x0 y0 i j r else r) r

theorem drawRow_eq (c : Config) (x0 y0 : Byte) (i : Nat) (row : Byte) (r : Raster × Bool) :
    drawRow c x0 y0 i row r = drawCols c x0 y0 i row (List.range 8) r := rfl

/-- One pixel of the sprite: where it lands on the display, that pixel is flipped, and the collision noted
if it was lit; elsewhere nothing changes. -/
theorem drawPixel_spec (c : Config) (x0 y0 : Byte) (i j : Nat) (r : Raster × Bool) :
    (∀ px py, Lands c x0.toNat y0.toNat i j px py →
      pixelAt (drawPixel c x0 y0 i j r).1 px py = !pixelAt r.1 px py) ∧
    (∀ px py, ¬ Lands c x0.toNat y0.toNat i j px py →
      pixelAt (drawPixel c x0 y0 i j r).1 px py = pixelAt r.1 px py) ∧
    ((drawPixel c x0 y0 i j r).2 = true ↔
      r.2 = true ∨ ∃ px py, Lands c x0.toNat y0.toNat i j px py ∧ pixelAt r.1 px py = true) := by
  unfold drawPixel
  simp only [← placePixel_eq_some]
  cases h : placePixel c x0 y0 i j with
  | none => simp
  | some p =>
    obtain ⟨x, y⟩ := p
    refine ⟨fun px py he => ?_, fun px py hne => ?_, ?_⟩
    · cases he
      rw [pixelAt_flipPixel, if_pos ⟨rfl, rfl⟩]
    · rw [pixelAt_flipPixel, if_neg]
      rintro ⟨rfl, rfl⟩
      exact hne rfl
    · simp only [Bool.or_eq_true, Option.some.injEq, Prod.mk.injEq]
      constructor
      · exact fun h => h.imp id fun h => ⟨x, y, ⟨rfl, rfl⟩, h⟩
      · rintro (h | ⟨px, py, ⟨rfl, rfl⟩, h⟩)
        · exact .inl h
        · exact .inr h

/-- The columns of one row, each drawn once: the pixels they cover are flipped, the others kept, and a
covered pixel that was lit is a collision. -/
theorem drawCols_spec (c : Config) (x0 y0 : Byte) (i : Nat) (row : Byte) (cols : List Nat)
    (r : Raster × Bool) (hi : i < 16) (hnd : cols.Nodup) (hcols : ∀ j ∈ cols, j < 8) :
    (∀ px py, RowCovers c x0 y0 i row cols px py →
      pixelAt (drawCols c x0 y0 i row cols r).1 px py = !pixelAt r.1 px py) ∧
    (∀ px py, ¬ RowCovers c x0 y0 i row cols px py →
      pixelAt (drawCols c x0 y0 i row cols r).1 px py = pixelAt r.1 px py) ∧
    ((drawCols c x0 y0 i row cols r).2 = true ↔
      r.2 = true ∨ ∃ px py, RowCovers c x0 y0 i row cols px py ∧ pixelAt r.1 px py = true) := by
  induction cols generalizing r with
  | nil => simp [drawCols, RowCovers]
  | cons j cols ih =>
    obtain ⟨hj, hnd⟩ := List.nodup_cons.mp hnd
    have hrest := fun r => ih r hnd fun k hk => hcols k (by simp [hk])
    have hcons : ∀ px py, RowCovers c x0 y0 i row (j :: cols) px py ↔
        (row.getLsbD (7 - j) = true ∧ Lands c x0.toNat y0.toNat i j px py) ∨
          RowCovers c x0 y0 i row cols px py := by
      intro px py
      simp [RowCovers]
    by_cases hbit : row.getLsbD (7 - j) = true
    · have hstep : drawCols c x0 y0 i row (j :: cols) r =
          drawCols c x0 y0 i row cols (drawPixel c x0 y0 i j r) := by
        simp [drawCols, hbit]
      obtain ⟨h1, h2, h3⟩ := hrest (drawPixel c x0 y0 i j r)
      obtain ⟨p1, p2, p3⟩ := drawPixel_spec c x0 y0 i j r
      have hdisj : ∀ px py, Lands c x0.toNat y0.toNat i j px py → ¬ RowCovers c x0 y0 i row cols px py := by
        rintro px py hl ⟨k, hk, -, hl'⟩
        have := (hl.unique hl' hi hi (hcols j (by simp)) (hcols k (by simp [hk]))).2
        exact hj (this ▸ hk)
      rw [hstep]
      simp only [hcons, hbit, true_and]
      refine ⟨?_, ?_, ?_⟩
      · rintro px py (h | h)
        · rw [h2 px py (hdisj px py h), p1 px py h]
        · rw [h1 px py h, p2 px py fun hl => hdisj px py hl h]
      · intro px py h
        rw [not_or] at h
        rw [h2 px py h.2, p2 px py h.1]
      · rw [h3, p3]
        constructor
        · rintro ((h | ⟨px, py, hl, h⟩) | ⟨px, py, hr, h⟩)
          · exact .inl h
          · exact .inr ⟨px, py, .inl hl, h⟩
          · rw [p2 px py fun hl => hdisj px py hl hr] at h
            exact .inr ⟨px, py, .inr hr, h⟩
        · rintro (h | ⟨px, py, hl | hr, h⟩)
          · exact .inl (.inl h)
          · exact .inl (.inr ⟨px, py, hl, h⟩)
          · refine .inr ⟨px, py, hr, ?_⟩
            rw [p2 px py fun hl => hdisj px py hl hr]
            exact h
    · have hstep : drawCols c x0 y0 i row (j :: cols) r = drawCols c x0 y0 i row cols r := by
        simp [drawCols, hbit]
      rw [hstep]
      simpa [hcons, hbit] using hrest r

/-- One row of the sprite, all eight columns. -/
theorem drawRow_spec (c : Config) (x0 y0 : Byte) (i : Nat) (row : Byte) (r : Raster × Bool) (hi : i < 16) :
    (∀ px py, RowCovers c x0 y0 i row (List.range 8) px py →
      pixelAt (drawRow c x0 y0 i row r).1 px py = !pixelAt r.1 px py) ∧
    (∀ px py, ¬ RowCovers c x0 y0 i row (List.range 8) px py →
      pixelAt (drawRow c x0 y0 i row r).1 px py = pixelAt r.1 px py) ∧
    ((drawRow c x0 y0 i row r).2 = true ↔
      r.2 = true ∨ ∃ px py, RowCovers c x0 y0 i row (List.range 8) px py ∧ pixelAt r.1 px py = true) := by
  rw [drawRow_eq]
  exact drawCols_spec c x0 y0 i row _ r hi List.nodup_range fun j hj => by simpa using hj

/-! ### Drawing all rows -/

/-- The sprite's rows from row `i` on have a set pixel that lands on `(px, py)`. -/
def RowsCover (c : Config) (x0 y0 : Byte) (i : Nat) (rows : List Byte) (px : Fin 64) (py : Fin 32) : Prop :=
  ∃ k, ∃ h : k < rows.length, RowCovers c x0 y0 (i + k) rows[k] (List.range 8) px py

theorem rowsCover_cons {c : Config} {x0 y0 : Byte} {i : Nat} {row : Byte} {rows : List Byte} {px : Fin 64}
    {py : Fin 32} : RowsCover c x0 y0 i (row :: rows) px py ↔
      RowCovers c x0 y0 i row (List.range 8) px py ∨ RowsCover c x0 y0 (i + 1) rows px py := by
  constructor
  · rintro ⟨k, hk, h⟩
    cases k with
    | zero => exact .inl h
    | succ k => exact .inr ⟨k, by simpa using hk, by simpa [Nat.add_assoc, Nat.add_comm 1 k] using h⟩
  · rintro (h | ⟨k, hk, h⟩)
    · exact ⟨0, by simp, h⟩
    · exact ⟨k + 1, by simpa using hk, by simpa [Nat.add_assoc, Nat.add_comm 1 k] using h⟩

/-- The rows of a sprite of at most 15 rows: the pixels they cover are flipped, the others kept, and a
covered pixel that was lit is a collision. -/
theorem drawRows_spec (c : Config) (x0 y0 : Byte) (i : Nat) (rows : List Byte) (r : Raster × Bool)
    (hi : i + rows.length < 16) :
    (∀ px py, RowsCover c x0 y0 i rows px py →
      pixelAt (drawRows c x0 y0 i rows r).1 px py = !pixelAt r.1 px py) ∧
    (∀ px py, ¬ RowsCover c x0 y0 i rows px py →
      pixelAt (drawRows c x0 y0 i rows r).1 px py = pixelAt r.1 px py) ∧
    ((drawRows c x0 y0 i rows r).2 = true ↔
      r.2 = true ∨ ∃ px py, RowsCover c x0 y0 i rows px py ∧ pixelAt r.1 px py = true) := by
  induction rows generalizing i r with
  | nil => simp [drawRows, RowsCover]
  | cons row rows ih =>
    rw [List.length_cons] at hi
    obtain ⟨h1, h2, h3⟩ := ih (i + 1) (drawRow c x0 y0 i row r) (by omega)
    obtain ⟨p1, p2, p3⟩ := drawRow_spec c x0 y0 i row r (by omega)
    have hdisj : ∀ px py, RowCovers c x0 y0 i row (List.range 8) px py →
        ¬ RowsCover c x0 y0 (i + 1) rows px py := by
      rintro px py ⟨j, hj, -, hl⟩ ⟨k, hk, j', hj', -, hl'⟩
      have := (hl.unique hl' (by omega) (by omega) (by simpa using hj) (by simpa using hj')).1
      omega
    simp only [drawRows, rowsCover_cons]
    refine ⟨?_, ?_, ?_⟩
    · rintro px py (h | h)
      · rw [h2 px py (hdisj px py h), p1 px py h]
      · rw [h1 px py h, p2 px py fun hl => hdisj px py hl h]
    · intro px py h
      rw [not_or] at h
      rw [h2 px py h.2, p2 px py h.1]
    · rw [h3, p3]
      constructor
      · rintro ((h | ⟨px, py, hl, h⟩) | ⟨px, py, hr, h⟩)
        · exact .inl h
        · exact .inr ⟨px, py, .inl hl, h⟩
        · rw [p2 px py fun hl => hdisj px py hl hr] at h
          exact .inr ⟨px, py, .inr hr, h⟩
      · rintro (h | ⟨px, py, hl | hr, h⟩)
        · exact .inl (.inl h)
        · exact .inl (.inr ⟨px, py, hl, h⟩)
        · refine .inr ⟨px, py, hr, ?_⟩
          rw [p2 px py fun hl => hdisj px py hl hr]
          exact h

end Sys2Proof.Machine
end

