-- ==== Sys2Proof/Laws/Exec.lean ====
section
/-! SUPPORT. What an instruction can do to each field of the state, said once: later proofs cite
`exec_effect` and do not unfold the meanings. -/

namespace Sys2Proof.Machine

/-- What an instruction that raises no error does to every field but the registers, `I` and `PC`. -/
structure Effect (i : Instr) (s t : State) : Prop where
  cfg   : t.cfg = s.cfg
  key   : t.key = s.key
  halt  : t.halt = s.halt
  wait  : t.wait = s.wait ∨ ∃ x, i = .ldVxK x ∧ t.wait = some x
  fb    : t.fb = s.fb ∨ i = .cls ∨ ∃ x y n, i = .drw x y n
  stack : t.stack = s.stack ∨ (∃ nnn, i = .call nnn ∧ s.stack.length ≠ 16 ∧ t.stack = s.stack ++ [s.pc + 2]) ∨
    (i = .ret ∧ t.stack = s.stack.dropLast)
  dt    : t.dt = s.dt ∨ ∃ x, i = .ldDtVx x ∧ t.dt = s.reg x
  st    : t.st = s.st ∨ ∃ x, i = .ldStVx x ∧ t.st = s.reg x
  draws : t.draws = s.draws ∨ ∃ x nn, i = .rnd x nn ∧ t.draws = s.draws + 1
  mem   : t.mem = s.mem ∨ ((∃ x, i = .ldBVx x ∨ i = .ldMemVx x) ∧
    ∃ rs bs, t.mem = memPutAll s.fontBase s.mem rs bs ∧
      ∀ r ∈ rs, r < memoryBytes ∧ (s.cfg.reservedWrite = .fault → programBase ≤ r))

/-- An instruction that touches none of those fields. -/
theorem Effect.of_eq {i : Instr} {s t : State} (cfg : t.cfg = s.cfg) (key : t.key = s.key)
    (halt : t.halt = s.halt) (wait : t.wait = s.wait) (fb : t.fb = s.fb) (stack : t.stack = s.stack)
    (dt : t.dt = s.dt) (st : t.st = s.st) (draws : t.draws = s.draws) (mem : t.mem = s.mem) : Effect i s t :=
  ⟨cfg, key, halt, .inl wait, .inl fb, .inl stack, .inl dt, .inl st, .inl draws, .inl mem⟩

/-- An instruction that writes registers or `PC` only ends so. -/
theorem next_effect {i : Instr} {s t u : State} (h : (.next u : Host.Outcome State Fault Refusal) = .next t)
    (hu : Effect i s u) : Effect i s t ∨ ∃ e, t = s.raise e := by
  cases h
  exact .inl hu

/-- A store: memory is written at addresses the program may write, and nothing else of `Effect`'s. -/
theorem memWrite_effect {i : Instr} {s u t : State} {a : Nat} {bs : List Byte} (hw : memWrite s a bs = .ok u)
    (hi : ∃ x, i = .ldBVx x ∨ i = .ldMemVx x) (cfg : t.cfg = u.cfg) (key : t.key = u.key)
    (halt : t.halt = u.halt) (wait : t.wait = u.wait) (fb : t.fb = u.fb) (stack : t.stack = u.stack)
    (dt : t.dt = u.dt) (st : t.st = u.st) (draws : t.draws = u.draws) (mem : t.mem = u.mem) : Effect i s t := by
  obtain ⟨rs, -, rfl, hrs⟩ := memWrite_cases hw
  exact ⟨cfg, key, halt, .inl wait, .inl fb, .inl stack, .inl dt, .inl st, .inl draws,
    .inr ⟨hi, rs, bs, mem, hrs⟩⟩

/-- What an instruction can do: its effect, or an error that changes nothing but `Halt`. -/
theorem exec_effect {i : Instr} {s t : State} (h : exec i s = .next t) :
    Effect i s t ∨ ∃ e, t = s.raise e := by
  cases i with
  | cls => exact next_effect h ⟨rfl, rfl, rfl, .inl rfl, .inr (.inl rfl), .inl rfl, .inl rfl, .inl rfl, .inl rfl, .inl rfl⟩
  | ret =>
    rcases finish_map_cases h with ⟨p, hp, rfl⟩ | he
    · obtain ⟨-, hst⟩ := pop_cases hp
      refine .inl ?_
      rw [hst]
      exact ⟨rfl, rfl, rfl, .inl rfl, .inl rfl, .inr (.inr ⟨rfl, rfl⟩), .inl rfl, .inl rfl, .inl rfl, .inl rfl⟩
    · exact .inr (he.imp fun _ h => h.2)
  | call nnn =>
    rcases finish_map_cases h with ⟨p, hp, rfl⟩ | he
    · obtain ⟨hne, rfl⟩ := push_cases hp
      exact .inl ⟨rfl, rfl, rfl, .inl rfl, .inl rfl, .inr (.inl ⟨nnn, rfl, hne, rfl⟩), .inl rfl, .inl rfl,
        .inl rfl, .inl rfl⟩
    · exact .inr (he.imp fun _ h => h.2)
  | drw x y n =>
    rcases finish_map_cases h with ⟨rows, -, rfl⟩ | he
    · exact .inl ⟨rfl, rfl, rfl, .inl rfl, .inr (.inr ⟨x, y, n, rfl⟩), .inl rfl, .inl rfl, .inl rfl, .inl rfl, .inl rfl⟩
    · exact .inr (he.imp fun _ h => h.2)
  | skp x | sknp x =>
    rcases finish_map_cases h with ⟨k, -, rfl⟩ | he
    · exact .inl (.of_eq (by simp) (by simp) (by simp) (by simp) (by simp) (by simp) (by simp) (by simp) (by simp) (by simp))
    · exact .inr (he.imp fun _ h => h.2)
  | ldFVx x =>
    rcases finish_map_cases h with ⟨d, -, rfl⟩ | he
    · exact .inl (.of_eq rfl rfl rfl rfl rfl rfl rfl rfl rfl rfl)
    · exact .inr (he.imp fun _ h => h.2)
  | ldVxMem x =>
    rcases finish_map_cases h with ⟨bs, -, rfl⟩ | he
    · exact .inl (.of_eq (by simp) (by simp) (by simp) (by simp) (by simp) (by simp) (by simp) (by simp) (by simp) (by simp))
    · exact .inr (he.imp fun _ h => h.2)
  | ldMemVx x =>
    rcases finish_map_cases h with ⟨u, hu, rfl⟩ | he
    · exact .inl (memWrite_effect hu ⟨x, .inr rfl⟩ (by simp) (by simp) (by simp) (by simp) (by simp) (by simp)
        (by simp) (by simp) (by simp) (by simp))
    · exact .inr (he.imp fun _ h => h.2)
  | ldBVx x =>
    rcases finish_map_cases h with ⟨u, hu, rfl⟩ | he
    · exact .inl (memWrite_effect hu ⟨x, .inl rfl⟩ rfl rfl rfl rfl rfl rfl rfl rfl rfl rfl)
    · exact .inr (he.imp fun _ h => h.2)
  | ldVxK x =>
    simp only [exec, execLdVxK] at h
    split at h <;> cases h <;>
      exact .inl ⟨rfl, rfl, rfl, .inr ⟨x, rfl, rfl⟩, .inl rfl, .inl rfl, .inl rfl, .inl rfl, .inl rfl, .inl rfl⟩
  | ldDtVx x =>
    exact next_effect h ⟨rfl, rfl, rfl, .inl rfl, .inl rfl, .inl rfl, .inr ⟨x, rfl, rfl⟩, .inl rfl, .inl rfl, .inl rfl⟩
  | ldStVx x =>
    exact next_effect h ⟨rfl, rfl, rfl, .inl rfl, .inl rfl, .inl rfl, .inl rfl, .inr ⟨x, rfl, rfl⟩, .inl rfl, .inl rfl⟩
  | rnd x nn =>
    exact next_effect h ⟨rfl, rfl, rfl, .inl rfl, .inl rfl, .inl rfl, .inl rfl, .inl rfl, .inr ⟨x, nn, rfl, rfl⟩, .inl rfl⟩
  | orReg x y | andReg x y | xorReg x y =>
    exact next_effect h (.of_eq (by simp) (by simp) (by simp) (by simp) (by simp) (by simp) (by simp) (by simp) (by simp) (by simp))
  | seImm x nn | sneImm x nn =>
    exact next_effect h (.of_eq (by simp) (by simp) (by simp) (by simp) (by simp) (by simp) (by simp) (by simp) (by simp) (by simp))
  | seReg x y | sneReg x y =>
    exact next_effect h (.of_eq (by simp) (by simp) (by simp) (by simp) (by simp) (by simp) (by simp) (by simp) (by simp) (by simp))
  | jp nnn | jpV0 nnn | ldI nnn => exact next_effect h (.of_eq rfl rfl rfl rfl rfl rfl rfl rfl rfl rfl)
  | ldImm x nn | addImm x nn => exact next_effect h (.of_eq rfl rfl rfl rfl rfl rfl rfl rfl rfl rfl)
  | ldReg x y | addReg x y | sub x y | subn x y | shr x y | shl x y =>
    exact next_effect h (.of_eq rfl rfl rfl rfl rfl rfl rfl rfl rfl rfl)
  | ldVxDt x | addIVx x => exact next_effect h (.of_eq rfl rfl rfl rfl rfl rfl rfl rfl rfl rfl)

/-! ### STEP -/

/-- What a STEP can do: nothing (halted or waiting), an error, the `PC + 2` of a 0NNN word under
`P_SYS = NoOp`, or one decoded instruction. -/
theorem step_cases {s t : State} (h : step s = .next t) :
    (t = s ∧ (s.halt ≠ none ∨ s.wait ≠ none)) ∨
    (s.halt = none ∧ s.wait = none ∧
      ((∃ e, t = s.raise e) ∨ t = s.advance ∨
        ∃ i w, fetch s = .ok w ∧ decode w = some i ∧ exec i s = .next t)) := by
  unfold step at h
  split at h
  · next e hh => exact .inl ⟨by cases h; rfl, .inl (by simp [hh])⟩
  · next r hh hw => exact .inl ⟨by cases h; rfl, .inr (by simp [hw])⟩
  · next hh hw =>
    refine .inr ⟨hh, hw, ?_⟩
    split at h
    · next e he => exact .inl ⟨e, by cases h; rfl⟩
    · next w hf =>
      unfold decodeUnder at h
      split at h
      · next i hi => exact .inr (.inr ⟨i, w, hf, hi, h⟩)
      · split at h
        · exact .inl ⟨_, by cases h; rfl⟩
        · split at h
          · exact .inr (.inl (by cases h; rfl))
          · exact .inl ⟨_, by cases h; rfl⟩

end Sys2Proof.Machine
end

