-- ==== Sys2Proof/Laws/Frame.lean ====
section
/-! SUPPORT. The frames of the shared operations, in the terms the claims use. -/

namespace Sys2Proof.Machine

/-! ### The smallest frames -/

theorem raise_unchanged (s : State) (e : CpuError) : UnchangedBut [.halt] s (s.raise e) := by
  intro p hp
  cases p <;> simp_all [Part.Same]

/-- An instruction that ends in an error latches it. -/
theorem latches_of_exec {i : Instr} {s : State} {e : CpuError} (h : exec i s = .next (s.raise e)) :
    Latches i s e :=
  ⟨s.raise e, h, rfl, raise_unchanged s e⟩

theorem skipIf_unchanged (s : State) (c : Bool) : UnchangedBut [.pc] s (s.skipIf c) := by
  intro p hp
  cases p <;> simp_all [Part.Same]

/-- A write of memory at some addresses leaves everything else alone. -/
theorem memPutAll_unchanged {s : State} {rs : List Nat} {bs : List Byte} {changed : List Part}
    (h : ∀ r ∈ rs, Part.byte r ∈ changed) :
    UnchangedBut changed s (s.setMem (memPutAll s.fontBase s.mem rs bs)) := by
  intro p hp
  cases p with
  | byte a => exact memGet_memPutAll_of_notMem fun ha => hp (h a ha)
  | _ => rfl

/-- More may be listed as changed. -/
theorem UnchangedBut.mono {l l' : List Part} {s t : State} (h : UnchangedBut l s t) (hl : ∀ p ∈ l, p ∈ l') :
    UnchangedBut l' s t :=
  fun p hp => h p fun hin => hp (hl p hin)

/-! ### Addresses an instruction may use -/

theorem storable_iff {c : Config} {a : Nat} : Storable c a ↔ ∃ r, resolveStore c a = .ok r := by
  simp only [resolveStore_ok, Storable]
  refine exists_congr fun r => and_congr_right fun _ => ?_
  cases hc : c.reservedWrite <;> simp

/-- Where every byte resolves, the access's addresses are those the claims name. -/
theorem resolvedBytes_eq {c : Config} {a n : Nat} {rs : List Nat} (hlen : rs.length = n)
    (h : ∀ k (hk : k < rs.length), resolve c (a + k) = .ok rs[k]) : resolvedBytes c a n = rs := by
  subst hlen
  unfold resolvedBytes
  have hmap : rs = (List.range rs.length).filterMap fun k => rs[k]? := by
    have := List.filterMap_congr (l := List.range rs.length) (f := fun k => rs[k]?)
      (g := fun k => some (rs.getD k 0)) fun k hk => by
        have hk : k < rs.length := by simpa using hk
        simp [hk]
    rw [this, List.filterMap_eq_map']
    apply List.ext_getElem
    · simp
    · intro k hk _
      simp [hk]
  conv => rhs; rw [hmap]
  refine List.filterMap_congr fun k hk => ?_
  have hk : k < rs.length := by simpa using hk
  simp [h k hk, hk, Except.toOption]

end Sys2Proof.Machine
end

