-- ==== Sys2Proof/Laws/PerInstr.lean ====
section
/-! SUPPORT. The per-instruction law: an instruction's word is accepted by the row of
spec/opcode_table.json that has its mnemonic, and its operands fit their fields. -/

namespace Sys2Proof.Laws.EncodingFitsRow

/-- The encoding of the instruction fits its row of the opcode table (spec/30_encoding.md R83), and
every operand fits its field (R12). -/
def Statement (i : Instr) : Prop :=
  (∃ r ∈ opcodeRows, r.mnemonic = i.mnemonic ∧ r.accepts (encode i) = true) ∧ i.wf = true

/-- A register operand fits its field. -/
theorem reg_wf (x : Reg) : (RawOperand.reg x.val).wf = true :=
  decide_eq_true (by omega)

/-- A byte operand fits its field. -/
theorem byte_wf (b : Byte) : (RawOperand.byte b.toNat).wf = true :=
  decide_eq_true (by have := b.isLt; omega)

/-- An address operand fits its field. -/
theorem addr_wf (a : Addr) : (RawOperand.addr a.toNat).wf = true :=
  decide_eq_true (by have := a.isLt; omega)

/-- A nibble operand fits its field. -/
theorem nibble_wf (n : Count) : (RawOperand.nibble n.val).wf = true :=
  decide_eq_true (by omega)

/-- The statement from a row of the table and the operands' checks. -/
theorem of_row {i : Instr} (r : OpcodeRow) (hr : r ∈ opcodeRows) (hm : r.mnemonic = i.mnemonic)
    (ha : r.accepts (encode i) = true) (hw : i.wf = true) : Statement i :=
  ⟨⟨r, hr, hm, ha⟩, hw⟩

theorem cls : Statement .cls :=
  of_row ⟨"CLS", 0x00E0, 0xFFFF⟩ (by decide) rfl
    rfl
    (rfl)

theorem ret : Statement .ret :=
  of_row ⟨"RET", 0x00EE, 0xFFFF⟩ (by decide) rfl
    rfl
    (rfl)

theorem jp (nnn : Addr) : Statement (.jp nnn) :=
  of_row ⟨"JP", 0x1000, 0xF000⟩ (by decide) rfl
    (accepts_F000 (o := 0x1) rfl
      (by rw [encode, formatNNN_toNat nnn (by norm_num)]; have := nnn.isLt; omega))
    (by simp [Instr.wf, Instr.operands, addr_wf nnn])

theorem call (nnn : Addr) : Statement (.call nnn) :=
  of_row ⟨"CALL", 0x2000, 0xF000⟩ (by decide) rfl
    (accepts_F000 (o := 0x2) rfl
      (by rw [encode, formatNNN_toNat nnn (by norm_num)]; have := nnn.isLt; omega))
    (by simp [Instr.wf, Instr.operands, addr_wf nnn])

theorem seImm (x : Reg) (nn : Byte) : Statement (.seImm x nn) :=
  of_row ⟨"SE_IMM", 0x3000, 0xF000⟩ (by decide) rfl
    (accepts_F000 (o := 0x3) rfl
      (by rw [encode, formatXNN_toNat x nn (by norm_num)]; have := nn.isLt; omega))
    (by simp [Instr.wf, Instr.operands, reg_wf x, byte_wf nn])

theorem sneImm (x : Reg) (nn : Byte) : Statement (.sneImm x nn) :=
  of_row ⟨"SNE_IMM", 0x4000, 0xF000⟩ (by decide) rfl
    (accepts_F000 (o := 0x4) rfl
      (by rw [encode, formatXNN_toNat x nn (by norm_num)]; have := nn.isLt; omega))
    (by simp [Instr.wf, Instr.operands, reg_wf x, byte_wf nn])

theorem seReg (x y : Reg) : Statement (.seReg x y) :=
  of_row ⟨"SE_REG", 0x5000, 0xF00F⟩ (by decide) rfl
    (accepts_F00F (o := 0x5) (f := 0x0) rfl
      (by rw [encode, formatXYN_toNat x y (by norm_num) (by norm_num)]; omega)
      (by rw [encode, formatXYN_toNat x y (by norm_num) (by norm_num)]; omega))
    (by simp [Instr.wf, Instr.operands, reg_wf x, reg_wf y])

theorem ldImm (x : Reg) (nn : Byte) : Statement (.ldImm x nn) :=
  of_row ⟨"LD_IMM", 0x6000, 0xF000⟩ (by decide) rfl
    (accepts_F000 (o := 0x6) rfl
      (by rw [encode, formatXNN_toNat x nn (by norm_num)]; have := nn.isLt; omega))
    (by simp [Instr.wf, Instr.operands, reg_wf x, byte_wf nn])

theorem addImm (x : Reg) (nn : Byte) : Statement (.addImm x nn) :=
  of_row ⟨"ADD_IMM", 0x7000, 0xF000⟩ (by decide) rfl
    (accepts_F000 (o := 0x7) rfl
      (by rw [encode, formatXNN_toNat x nn (by norm_num)]; have := nn.isLt; omega))
    (by simp [Instr.wf, Instr.operands, reg_wf x, byte_wf nn])

theorem ldReg (x y : Reg) : Statement (.ldReg x y) :=
  of_row ⟨"LD_REG", 0x8000, 0xF00F⟩ (by decide) rfl
    (accepts_F00F (o := 0x8) (f := 0x0) rfl
      (by rw [encode, formatXYN_toNat x y (by norm_num) (by norm_num)]; omega)
      (by rw [encode, formatXYN_toNat x y (by norm_num) (by norm_num)]; omega))
    (by simp [Instr.wf, Instr.operands, reg_wf x, reg_wf y])

theorem orReg (x y : Reg) : Statement (.orReg x y) :=
  of_row ⟨"OR", 0x8001, 0xF00F⟩ (by decide) rfl
    (accepts_F00F (o := 0x8) (f := 0x1) rfl
      (by rw [encode, formatXYN_toNat x y (by norm_num) (by norm_num)]; omega)
      (by rw [encode, formatXYN_toNat x y (by norm_num) (by norm_num)]; omega))
    (by simp [Instr.wf, Instr.operands, reg_wf x, reg_wf y])

theorem andReg (x y : Reg) : Statement (.andReg x y) :=
  of_row ⟨"AND", 0x8002, 0xF00F⟩ (by decide) rfl
    (accepts_F00F (o := 0x8) (f := 0x2) rfl
      (by rw [encode, formatXYN_toNat x y (by norm_num) (by norm_num)]; omega)
      (by rw [encode, formatXYN_toNat x y (by norm_num) (by norm_num)]; omega))
    (by simp [Instr.wf, Instr.operands, reg_wf x, reg_wf y])

theorem xorReg (x y : Reg) : Statement (.xorReg x y) :=
  of_row ⟨"XOR", 0x8003, 0xF00F⟩ (by decide) rfl
    (accepts_F00F (o := 0x8) (f := 0x3) rfl
      (by rw [encode, formatXYN_toNat x y (by norm_num) (by norm_num)]; omega)
      (by rw [encode, formatXYN_toNat x y (by norm_num) (by norm_num)]; omega))
    (by simp [Instr.wf, Instr.operands, reg_wf x, reg_wf y])

theorem addReg (x y : Reg) : Statement (.addReg x y) :=
  of_row ⟨"ADD_REG", 0x8004, 0xF00F⟩ (by decide) rfl
    (accepts_F00F (o := 0x8) (f := 0x4) rfl
      (by rw [encode, formatXYN_toNat x y (by norm_num) (by norm_num)]; omega)
      (by rw [encode, formatXYN_toNat x y (by norm_num) (by norm_num)]; omega))
    (by simp [Instr.wf, Instr.operands, reg_wf x, reg_wf y])

theorem sub (x y : Reg) : Statement (.sub x y) :=
  of_row ⟨"SUB", 0x8005, 0xF00F⟩ (by decide) rfl
    (accepts_F00F (o := 0x8) (f := 0x5) rfl
      (by rw [encode, formatXYN_toNat x y (by norm_num) (by norm_num)]; omega)
      (by rw [encode, formatXYN_toNat x y (by norm_num) (by norm_num)]; omega))
    (by simp [Instr.wf, Instr.operands, reg_wf x, reg_wf y])

theorem shr (x y : Reg) : Statement (.shr x y) :=
  of_row ⟨"SHR", 0x8006, 0xF00F⟩ (by decide) rfl
    (accepts_F00F (o := 0x8) (f := 0x6) rfl
      (by rw [encode, formatXYN_toNat x y (by norm_num) (by norm_num)]; omega)
      (by rw [encode, formatXYN_toNat x y (by norm_num) (by norm_num)]; omega))
    (by simp [Instr.wf, Instr.operands, reg_wf x, reg_wf y])

theorem subn (x y : Reg) : Statement (.subn x y) :=
  of_row ⟨"SUBN", 0x8007, 0xF00F⟩ (by decide) rfl
    (accepts_F00F (o := 0x8) (f := 0x7) rfl
      (by rw [encode, formatXYN_toNat x y (by norm_num) (by norm_num)]; omega)
      (by rw [encode, formatXYN_toNat x y (by norm_num) (by norm_num)]; omega))
    (by simp [Instr.wf, Instr.operands, reg_wf x, reg_wf y])

theorem shl (x y : Reg) : Statement (.shl x y) :=
  of_row ⟨"SHL", 0x800E, 0xF00F⟩ (by decide) rfl
    (accepts_F00F (o := 0x8) (f := 0xE) rfl
      (by rw [encode, formatXYN_toNat x y (by norm_num) (by norm_num)]; omega)
      (by rw [encode, formatXYN_toNat x y (by norm_num) (by norm_num)]; omega))
    (by simp [Instr.wf, Instr.operands, reg_wf x, reg_wf y])

theorem sneReg (x y : Reg) : Statement (.sneReg x y) :=
  of_row ⟨"SNE_REG", 0x9000, 0xF00F⟩ (by decide) rfl
    (accepts_F00F (o := 0x9) (f := 0x0) rfl
      (by rw [encode, formatXYN_toNat x y (by norm_num) (by norm_num)]; omega)
      (by rw [encode, formatXYN_toNat x y (by norm_num) (by norm_num)]; omega))
    (by simp [Instr.wf, Instr.operands, reg_wf x, reg_wf y])

theorem ldI (nnn : Addr) : Statement (.ldI nnn) :=
  of_row ⟨"LD_I", 0xA000, 0xF000⟩ (by decide) rfl
    (accepts_F000 (o := 0xA) rfl
      (by rw [encode, formatNNN_toNat nnn (by norm_num)]; have := nnn.isLt; omega))
    (by simp [Instr.wf, Instr.operands, addr_wf nnn])

theorem jpV0 (nnn : Addr) : Statement (.jpV0 nnn) :=
  of_row ⟨"JP_V0", 0xB000, 0xF000⟩ (by decide) rfl
    (accepts_F000 (o := 0xB) rfl
      (by rw [encode, formatNNN_toNat nnn (by norm_num)]; have := nnn.isLt; omega))
    (by simp [Instr.wf, Instr.operands, addr_wf nnn])

theorem rnd (x : Reg) (nn : Byte) : Statement (.rnd x nn) :=
  of_row ⟨"RND", 0xC000, 0xF000⟩ (by decide) rfl
    (accepts_F000 (o := 0xC) rfl
      (by rw [encode, formatXNN_toNat x nn (by norm_num)]; have := nn.isLt; omega))
    (by simp [Instr.wf, Instr.operands, reg_wf x, byte_wf nn])

theorem drw (x y : Reg) (n : Count) : Statement (.drw x y n) :=
  of_row ⟨"DRW", 0xD000, 0xF000⟩ (by decide) rfl
    (accepts_F000 (o := 0xD) rfl
      (by rw [encode, formatXYN_toNat x y (by norm_num) n.isLt]; omega))
    (by simp [Instr.wf, Instr.operands, reg_wf x, reg_wf y, nibble_wf n])

theorem skp (x : Reg) : Statement (.skp x) :=
  of_row ⟨"SKP", 0xE09E, 0xF0FF⟩ (by decide) rfl
    (accepts_F0FF (o := 0xE) (f := 0x9E) rfl
      (by rw [encode, formatX_toNat x (by norm_num) (by norm_num)]; omega)
      (by rw [encode, formatX_toNat x (by norm_num) (by norm_num)]; omega))
    (by simp [Instr.wf, Instr.operands, reg_wf x])

theorem sknp (x : Reg) : Statement (.sknp x) :=
  of_row ⟨"SKNP", 0xE0A1, 0xF0FF⟩ (by decide) rfl
    (accepts_F0FF (o := 0xE) (f := 0xA1) rfl
      (by rw [encode, formatX_toNat x (by norm_num) (by norm_num)]; omega)
      (by rw [encode, formatX_toNat x (by norm_num) (by norm_num)]; omega))
    (by simp [Instr.wf, Instr.operands, reg_wf x])

theorem ldVxDt (x : Reg) : Statement (.ldVxDt x) :=
  of_row ⟨"LD_VX_DT", 0xF007, 0xF0FF⟩ (by decide) rfl
    (accepts_F0FF (o := 0xF) (f := 0x07) rfl
      (by rw [encode, formatX_toNat x (by norm_num) (by norm_num)]; omega)
      (by rw [encode, formatX_toNat x (by norm_num) (by norm_num)]; omega))
    (by simp [Instr.wf, Instr.operands, reg_wf x])

theorem ldVxK (x : Reg) : Statement (.ldVxK x) :=
  of_row ⟨"LD_VX_K", 0xF00A, 0xF0FF⟩ (by decide) rfl
    (accepts_F0FF (o := 0xF) (f := 0x0A) rfl
      (by rw [encode, formatX_toNat x (by norm_num) (by norm_num)]; omega)
      (by rw [encode, formatX_toNat x (by norm_num) (by norm_num)]; omega))
    (by simp [Instr.wf, Instr.operands, reg_wf x])

theorem ldDtVx (x : Reg) : Statement (.ldDtVx x) :=
  of_row ⟨"LD_DT_VX", 0xF015, 0xF0FF⟩ (by decide) rfl
    (accepts_F0FF (o := 0xF) (f := 0x15) rfl
      (by rw [encode, formatX_toNat x (by norm_num) (by norm_num)]; omega)
      (by rw [encode, formatX_toNat x (by norm_num) (by norm_num)]; omega))
    (by simp [Instr.wf, Instr.operands, reg_wf x])

theorem ldStVx (x : Reg) : Statement (.ldStVx x) :=
  of_row ⟨"LD_ST_VX", 0xF018, 0xF0FF⟩ (by decide) rfl
    (accepts_F0FF (o := 0xF) (f := 0x18) rfl
      (by rw [encode, formatX_toNat x (by norm_num) (by norm_num)]; omega)
      (by rw [encode, formatX_toNat x (by norm_num) (by norm_num)]; omega))
    (by simp [Instr.wf, Instr.operands, reg_wf x])

theorem addIVx (x : Reg) : Statement (.addIVx x) :=
  of_row ⟨"ADD_I_VX", 0xF01E, 0xF0FF⟩ (by decide) rfl
    (accepts_F0FF (o := 0xF) (f := 0x1E) rfl
      (by rw [encode, formatX_toNat x (by norm_num) (by norm_num)]; omega)
      (by rw [encode, formatX_toNat x (by norm_num) (by norm_num)]; omega))
    (by simp [Instr.wf, Instr.operands, reg_wf x])

theorem ldFVx (x : Reg) : Statement (.ldFVx x) :=
  of_row ⟨"LD_F_VX", 0xF029, 0xF0FF⟩ (by decide) rfl
    (accepts_F0FF (o := 0xF) (f := 0x29) rfl
      (by rw [encode, formatX_toNat x (by norm_num) (by norm_num)]; omega)
      (by rw [encode, formatX_toNat x (by norm_num) (by norm_num)]; omega))
    (by simp [Instr.wf, Instr.operands, reg_wf x])

theorem ldBVx (x : Reg) : Statement (.ldBVx x) :=
  of_row ⟨"LD_B_VX", 0xF033, 0xF0FF⟩ (by decide) rfl
    (accepts_F0FF (o := 0xF) (f := 0x33) rfl
      (by rw [encode, formatX_toNat x (by norm_num) (by norm_num)]; omega)
      (by rw [encode, formatX_toNat x (by norm_num) (by norm_num)]; omega))
    (by simp [Instr.wf, Instr.operands, reg_wf x])

theorem ldMemVx (x : Reg) : Statement (.ldMemVx x) :=
  of_row ⟨"LD_MEM_VX", 0xF055, 0xF0FF⟩ (by decide) rfl
    (accepts_F0FF (o := 0xF) (f := 0x55) rfl
      (by rw [encode, formatX_toNat x (by norm_num) (by norm_num)]; omega)
      (by rw [encode, formatX_toNat x (by norm_num) (by norm_num)]; omega))
    (by simp [Instr.wf, Instr.operands, reg_wf x])

theorem ldVxMem (x : Reg) : Statement (.ldVxMem x) :=
  of_row ⟨"LD_VX_MEM", 0xF065, 0xF0FF⟩ (by decide) rfl
    (accepts_F0FF (o := 0xF) (f := 0x65) rfl
      (by rw [encode, formatX_toNat x (by norm_num) (by norm_num)]; omega)
      (by rw [encode, formatX_toNat x (by norm_num) (by norm_num)]; omega))
    (by simp [Instr.wf, Instr.operands, reg_wf x])

end Sys2Proof.Laws.EncodingFitsRow
end

