-- ==== Sys2Proof/Laws/Transactions.lean ====
section
/-! SUPPORT. The laws of the host's transactions: what installing a program does to memory, and what a key
event leaves alone. -/

namespace Sys2Proof.Machine

/-! ### LOAD -/

theorem programFits_iff {bytes : List Byte} : programFits bytes = true ↔ bytes.length ≤ 4096 - 512 :=
  ⟨of_decide_eq_true, decide_eq_true⟩

/-- Installing bytes keeps the canonical form. -/
theorem installBytes_wf {base : Nat} {m : Memory} {a : Nat} {bs : List Byte}
    (hwf : Memory.wf base m = true) (h : a + bs.length ≤ memoryBytes) :
    Memory.wf base (installBytes base m a bs) = true := by
  induction bs generalizing m a with
  | nil => simpa [installBytes] using hwf
  | cons b bs ih =>
    rw [List.length_cons] at h
    exact ih (memPut_wf hwf (by omega)) (by omega)

/-- Each byte installed reads as given; every other address reads as before. -/
theorem memGet_installBytes {base : Nat} {m : Memory} {a : Nat} {bs : List Byte}
    (hwf : Memory.wf base m = true) (h : a + bs.length ≤ memoryBytes) (d : Nat) :
    memGet base (installBytes base m a bs) d =
      if h : a ≤ d ∧ d < a + bs.length then bs[d - a] else memGet base m d := by
  induction bs generalizing m a with
  | nil =>
    rw [dif_neg (by rw [List.length_nil]; omega)]
    rfl
  | cons b bs ih =>
    rw [List.length_cons] at h
    rw [installBytes, ih (memPut_wf hwf (by omega)) (by omega), memGet_memPut hwf]
    by_cases hd : d = a
    · subst hd
      simp
    · by_cases hin : a + 1 ≤ d ∧ d < a + 1 + bs.length
      · rw [dif_pos hin, dif_pos (by rw [List.length_cons]; omega)]
        simp [show d - a = d - (a + 1) + 1 by omega]
      · rw [dif_neg hin, if_neg hd, dif_neg (by rw [List.length_cons]; omega)]

/-- Installed bytes are listed at their own addresses only. -/
theorem mem_installBytes {base : Nat} {m : Memory} {a : Nat} {bs : List Byte} {c : Host.Cell}
    (h : c ∈ installBytes base m a bs) : a ≤ c.1 ∨ c ∈ m := by
  induction bs generalizing m a with
  | nil => exact .inr h
  | cons b bs ih =>
    rcases ih h with h | h
    · exact .inl (by omega)
    · exact (mem_memPut h).imp (fun h => by omega) id

/-! ### KEY -/

/-- A key event writes the latch, and, where it resolves a wait, one register, the marker and `PC`. -/
theorem keyEvent_frame (k : KeyNo) (p : Bool) (s : State) :
    (keyEvent k p s).mem = s.mem ∧ (keyEvent k p s).i = s.i ∧ (keyEvent k p s).stack = s.stack ∧
      (keyEvent k p s).fb = s.fb ∧ (keyEvent k p s).dt = s.dt ∧ (keyEvent k p s).st = s.st ∧
      (keyEvent k p s).halt = s.halt ∧ (keyEvent k p s).cfg = s.cfg ∧ (keyEvent k p s).draws = s.draws := by
  unfold keyEvent resolveWait
  cases p <;> cases s.wait <;> dsimp only <;> try split
  all_goals simp

/-! ### STEP as a transaction -/

/-- The state after a STEP transaction is that of `step`, and its response is read from it. -/
theorem transact_step {s s' : State} {r : Response} (h : transact .step s = .next (s', r)) :
    step s = .next s' ∧ r = stepResponse s' := by
  unfold transact at h
  dsimp only at h
  split at h
  · next hs =>
    cases h
    exact ⟨hs, rfl⟩
  · cases h
  · cases h

end Sys2Proof.Machine
end

