-- ==== Sys2Proof/Tests/Slice0.lean ====
section
/-! SUPPORT. The model's own tests. Expected values are those of spec/95_test_vectors.md (the row is named in
each test) or computed by hand from the rule named; the last part gives, for every statement that has
hypotheses, a state and operands that meet them. -/

namespace Sys2Proof.Tests

open Sys2Proof.Machine

/-! ## WellFormed: each check refuses an ill-formed term and passes the largest well-formed one -/

theorem test_config_font_base_too_high :
    { Config.defaults with fontBase := 0x1B1#12 }.wf = false ∧
    { Config.defaults with fontBase := 0x1B0#12 }.wf = true := by decide

theorem test_program_too_large :
    programFits (List.replicate 3585 0x12#8) = false ∧ programFits (List.replicate 3584 0x12#8) = true := by
  simp only [programFits, List.length_replicate]
  decide

theorem test_operand_reg : (RawOperand.reg 16).wf = false ∧ (RawOperand.reg 15).wf = true := by decide

theorem test_operand_byte : (RawOperand.byte 0x100).wf = false ∧ (RawOperand.byte 0xFF).wf = true := by decide

theorem test_operand_addr : (RawOperand.addr 0x1000).wf = false ∧ (RawOperand.addr 0xFFF).wf = true := by decide

theorem test_operand_nibble : (RawOperand.nibble 16).wf = false ∧ (RawOperand.nibble 15).wf = true := by decide

theorem test_instr_wf : (Instr.drw 15 15 15).wf = true := by decide

/-! ## Decode: words written out from the patterns of spec/30_encoding.md R83 -/

theorem test_decode_immediate_move :
    decode 0x63AB = some (.ldImm 3 0xAB) ∧ decode 0x8120 = some (.ldReg 1 2) := by decide

theorem test_decode_logic :
    decode 0x7220 = some (.addImm 2 0x20) ∧ decode 0x8AB1 = some (.orReg 0xA 0xB) ∧
    decode 0x8AB2 = some (.andReg 0xA 0xB) ∧ decode 0x8AB3 = some (.xorReg 0xA 0xB) := by decide

theorem test_decode_arithmetic :
    decode 0x8AB4 = some (.addReg 0xA 0xB) ∧ decode 0x8AB5 = some (.sub 0xA 0xB) ∧
    decode 0x8AB6 = some (.shr 0xA 0xB) ∧ decode 0x8AB7 = some (.subn 0xA 0xB) ∧
    decode 0x8ABE = some (.shl 0xA 0xB) := by decide

theorem test_decode_jumps :
    decode 0x1ABC = some (.jp 0xABC) ∧ decode 0xBABC = some (.jpV0 0xABC) ∧
    decode 0x2ABC = some (.call 0xABC) ∧ decode 0x00EE = some .ret := by decide

theorem test_decode_skips :
    decode 0x3510 = some (.seImm 5 0x10) ∧ decode 0x4511 = some (.sneImm 5 0x11) ∧
    decode 0x5120 = some (.seReg 1 2) ∧ decode 0x9120 = some (.sneReg 1 2) := by decide

theorem test_decode_memory :
    decode 0xA2F0 = some (.ldI 0x2F0) ∧ decode 0xF41E = some (.addIVx 4) ∧
    decode 0xF255 = some (.ldMemVx 2) ∧ decode 0xF265 = some (.ldVxMem 2) ∧
    decode 0xF533 = some (.ldBVx 5) ∧ decode 0xF329 = some (.ldFVx 3) := by decide

theorem test_decode_display :
    decode 0x00E0 = some .cls ∧ decode 0xD125 = some (.drw 1 2 5) := by decide

theorem test_decode_timers_random :
    decode 0xF307 = some (.ldVxDt 3) ∧ decode 0xF115 = some (.ldDtVx 1) ∧
    decode 0xF118 = some (.ldStVx 1) ∧ decode 0xC40F = some (.rnd 4 0x0F) := by decide

theorem test_decode_input :
    decode 0xE29E = some (.skp 2) ∧ decode 0xE2A1 = some (.sknp 2) ∧ decode 0xF30A = some (.ldVxK 3) := by
  decide

/-- Words of no row, at the edges of R85's list. -/
theorem test_decode_no_row :
    decode 0x0000 = none ∧ decode 0x00E1 = none ∧ decode 0x5121 = none ∧ decode 0x912F = none ∧
    decode 0x8018 = none ∧ decode 0x801F = none ∧ decode 0xE200 = none ∧ decode 0xE0A0 = none ∧
    decode 0xF000 = none ∧ decode 0xFFFF = none := by decide

/-- R86: under `P_SYS = NoOp` only the words of leading nibble 0 change. -/
theorem test_decode_under_sys :
    decodeUnder .noOp 0x0123 = .sysNoOp 0x123 ∧ decodeUnder .unknown 0x0123 = .unknown 0x0123 ∧
    decodeUnder .noOp 0x8018 = .unknown 0x8018 ∧ decodeUnder .noOp 0x00EE = .instr .ret := by decide

/-- R80: the first byte is the most significant; a lone byte is no instruction. -/
theorem test_decode_bytes :
    decodeBytes [0x6C, 0x42, 0x12] = .ok (.ldImm 0xC 0x42, [0x12]) ∧
    decodeBytes [0x80, 0x18] = .error (.unknownOpcode 0x8018) ∧
    decodeBytes [0x6C] = .error .truncated := by decide

theorem test_decode_table_word :
    decodeTableWord 16 0x6C42 = some (.ldImm 0xC 0x42) ∧ decodeTableWord 16 0xF565 = some (.ldVxMem 5) ∧
    decodeTableWord 16 0x0000 = none := by decide

/-! ## Helpers: small states, and one STEP -/

/-- The reset state with other parameters. -/
def base (c : Config) : State := State.resetFor c 0

/-- Registers given values. -/
def withRegs (s : State) (rs : List (Reg × Byte)) : State := rs.foldl (fun s p => s.setReg p.1 p.2) s

/-- Memory bytes given values. -/
def withBytes (s : State) (bs : List (Nat × Byte)) : State := bs.foldl (fun s p => s.poke p.1 p.2) s

/-- Pixels turned on. -/
def withPixels (s : State) (ps : List (Fin 64 × Fin 32)) : State :=
  ps.foldl (fun s p => s.setFb (flipPixel s.fb p.1 p.2)) s

/-- What a function of the next state is after one STEP of the word `w` placed at `PC`. -/
def afterWord {α : Type} (s : State) (w : Nat) (f : State → α) : Option α :=
  match step (s.withFetchWord 16 w) with
  | .next t => some (f t)
  | _       => none

/-- What a function of the next state is after one STEP. -/
def afterStep {α : Type} (s : State) (f : State → α) : Option α :=
  match step s with
  | .next t => some (f t)
  | _       => none

/-- What a function of the state is after a list of transactions. -/
def afterAll {α : Type} (s : State) (ts : List Transaction) (f : State → α) : Option α :=
  match runTransactions ts s with
  | .next t => some (f t)
  | _       => none

/-! ## Immediate and move -/

theorem test_ldImm : afterWord State.reset 0x63AB (fun t => (t.reg 3, t.pc)) = some (0xAB, 0x202) := by  -- V-MOV-1
  decide

theorem test_ldReg :  -- V-MOV-3
    afterWord (withRegs State.reset [(1, 0x07), (2, 0x99)]) 0x8120 (fun t => (t.reg 1, t.reg 2, t.pc)) =
      some (0x99, 0x99, 0x202) := by decide

/-! ## Arithmetic and logic -/

theorem test_addImm :  -- A-1
    afterWord (withRegs State.reset [(2, 0xF0), (15, 0x05)]) 0x7220 (fun t => (t.reg 2, t.reg 15, t.pc)) =
      some (0x10, 0x05, 0x202) := by decide

theorem test_orReg_keeps_flag :  -- A-4
    afterWord (withRegs State.reset [(0, 0x0C), (1, 0x0A), (15, 0x07)]) 0x8011 (fun t => (t.reg 0, t.reg 15)) =
      some (0x0E, 0x07) := by decide

theorem test_orReg_resets_flag :  -- A-4r
    afterWord (withRegs (base { Config.defaults with logicVf := .reset }) [(0, 0x0C), (1, 0x0A), (15, 0x07)])
      0x8011 (fun t => (t.reg 0, t.reg 15)) = some (0x0E, 0x00) := by decide

theorem test_andReg :  -- A-5
    afterWord (withRegs State.reset [(0, 0x0C), (1, 0x0A)]) 0x8012 (fun t => (t.reg 0, t.pc)) =
      some (0x08, 0x202) := by decide

theorem test_xorReg :  -- A-6
    afterWord (withRegs State.reset [(0, 0x0C), (1, 0x0A)]) 0x8013 (fun t => (t.reg 0, t.pc)) =
      some (0x06, 0x202) := by decide

theorem test_addReg_carry :  -- A-9
    afterWord (withRegs State.reset [(0, 0x80), (1, 0x80)]) 0x8014 (fun t => (t.reg 0, t.reg 15, t.pc)) =
      some (0x00, 0x01, 0x202) := by decide

theorem test_addReg_into_flag :  -- A-11
    afterWord (withRegs State.reset [(15, 0x01), (1, 0x01)]) 0x8F14 (fun t => t.reg 15) = some 0x00 := by
  decide

theorem test_sub_borrow :  -- A-13
    afterWord (withRegs State.reset [(0, 0x05), (1, 0x07)]) 0x8015 (fun t => (t.reg 0, t.reg 15)) =
      some (0xFE, 0x00) := by decide

theorem test_sub_equal :  -- A-14
    afterWord (withRegs State.reset [(0, 0x07), (1, 0x07)]) 0x8015 (fun t => (t.reg 0, t.reg 15)) =
      some (0x00, 0x01) := by decide

theorem test_subn :  -- A-18
    afterWord (withRegs State.reset [(0, 0x05), (1, 0x07)]) 0x8017 (fun t => (t.reg 0, t.reg 15)) =
      some (0x02, 0x01) := by decide

theorem test_shr_vy :  -- A-20
    afterWord (withRegs State.reset [(1, 0x05)]) 0x8016 (fun t => (t.reg 0, t.reg 15)) = some (0x02, 0x01) := by
  decide

theorem test_shr_vx :  -- A-21
    afterWord (withRegs (base { Config.defaults with shiftSrc := .vx }) [(0, 0x05), (1, 0xFF)]) 0x8016
      (fun t => (t.reg 0, t.reg 15)) = some (0x02, 0x01) := by decide

theorem test_shl_vy :  -- A-22
    afterWord (withRegs State.reset [(0, 0x81), (1, 0x40)]) 0x801E (fun t => (t.reg 0, t.reg 15)) =
      some (0x80, 0x00) := by decide

theorem test_shl_vx :  -- A-22x
    afterWord (withRegs (base { Config.defaults with shiftSrc := .vx }) [(0, 0x81), (1, 0x40)]) 0x801E
      (fun t => (t.reg 0, t.reg 15)) = some (0x02, 0x01) := by decide

/-! ## Control flow -/

theorem test_jp : afterWord State.reset 0x1234 (fun t => t.pc) = some 0x234 := by decide  -- C-1

theorem test_jpV0 :  -- C-4
    afterWord (withRegs State.reset [(0, 0xFF)]) 0xBFFF (fun t => t.pc) = some 0x10FE := by decide

theorem test_call :  -- C-5
    afterWord State.reset 0x2400 (fun t => (t.stack, t.pc)) = some ([0x202], 0x400) := by decide

theorem test_call_overflow :  -- C-6
    afterWord (State.reset.setStack (List.replicate 16 0x0ABC)) 0x2400 (fun t => (t.stack.length, t.pc, t.halt)) =
      some (16, 0x200, some (.stackOverflow 0x200)) := by decide

theorem test_ret :  -- C-7
    afterWord ((State.reset.setPc 0x40A).setStack [0x202]) 0x00EE (fun t => (t.stack, t.pc)) =
      some ([], 0x202) := by decide

theorem test_ret_underflow :  -- C-8
    afterWord (State.reset.setPc 0x40A) 0x00EE (fun t => (t.pc, t.halt)) =
      some (0x40A, some (.stackUnderflow 0x40A)) := by decide

theorem test_seImm :  -- C-9, C-9b
    afterWord (withRegs State.reset [(5, 0x10)]) 0x3510 (fun t => t.pc) = some 0x204 ∧
    afterWord (withRegs State.reset [(5, 0x10)]) 0x3511 (fun t => t.pc) = some 0x202 := by decide

theorem test_sneImm :  -- C-10, C-10b
    afterWord (withRegs State.reset [(5, 0x10)]) 0x4511 (fun t => t.pc) = some 0x204 ∧
    afterWord (withRegs State.reset [(5, 0x10)]) 0x4510 (fun t => t.pc) = some 0x202 := by decide

theorem test_seReg :  -- C-11
    afterWord (withRegs State.reset [(1, 0x33), (2, 0x33)]) 0x5120 (fun t => t.pc) = some 0x204 := by decide

theorem test_sneReg :  -- C-12, C-12b
    afterWord (withRegs State.reset [(1, 0x01), (2, 0x02)]) 0x9120 (fun t => t.pc) = some 0x204 ∧
    afterWord (withRegs State.reset [(1, 0x01)]) 0x9110 (fun t => t.pc) = some 0x202 := by decide

/-! ## Memory and index -/

theorem test_ldI : afterWord State.reset 0xA2F0 (fun t => (t.i, t.pc)) = some (0x02F0, 0x202) := by  -- M-1
  decide

theorem test_addIVx :  -- M-2c
    afterWord (withRegs (State.reset.setI 0xFFFF) [(0, 0x01)]) 0xF01E (fun t => (t.i, t.reg 15)) =
      some (0x0000, 0x00) := by decide

theorem test_ldMemVx :  -- M-3
    afterWord (withRegs (State.reset.setI 0x300) [(0, 1), (1, 2), (2, 3), (3, 4)]) 0xF255
      (fun t => ([0x300, 0x301, 0x302, 0x303].map t.byteAt, t.i)) = some ([1, 2, 3, 0], 0x303) := by decide

theorem test_ldMemVx_clamp :  -- M-6c
    afterWord (withRegs (((base { Config.defaults with addr := .clamp }).setPc 0x300).setI 0xFFF)
      [(0, 1), (1, 2)]) 0xF155 (fun t => (t.byteAt 0xFFF, t.i, t.halt)) = some (2, 0x1001, none) := by decide

theorem test_ldVxMem :  -- M-7
    afterWord (withRegs (withBytes (State.reset.setI 0x300) [(0x300, 9), (0x301, 8), (0x302, 7)]) [(3, 0x44)])
      0xF265 (fun t => ([t.reg 0, t.reg 1, t.reg 2, t.reg 3], t.i)) = some ([9, 8, 7, 0x44], 0x303) := by
  decide

theorem test_ldVxMem_font :  -- M-8b
    afterWord (State.reset.setI 0x050) 0xF065 (fun t => (t.reg 0, t.i)) = some (0xF0, 0x051) := by decide

theorem test_ldBVx :  -- M-9
    afterWord (withRegs (State.reset.setI 0x300) [(5, 123)]) 0xF533
      (fun t => ([0x300, 0x301, 0x302].map t.byteAt, t.i)) = some ([1, 2, 3], 0x300) := by decide

theorem test_ldBVx_no_partial_store :  -- M-10b
    afterWord (withRegs (((base { Config.defaults with addr := .fault }).setPc 0x300).setI 0xFFE) [(5, 123)])
      0xF533 (fun t => (t.byteAt 0xFFE, t.halt)) = some (0, some (.addressOutOfRange 0x1000)) := by decide

theorem test_ldFVx :  -- M-11c
    afterWord (withRegs State.reset [(3, 0x0F)]) 0xF329 (fun t => t.i) = some 0x09B := by decide

theorem test_ldFVx_mask :  -- M-11m
    afterWord (withRegs (base { Config.defaults with fontDigit := .mask }) [(3, 0x1A)]) 0xF329 (fun t => t.i) =
      some 0x082 := by decide

/-! ## Display -/

theorem test_cls :  -- D-1
    afterWord (withPixels State.reset [(0, 0), (63, 31)]) 0x00E0 (fun t => decide (t.fb = darkRaster)) =
      some true := by decide

theorem test_drw_glyph_zero :  -- D-2, row 1 of the glyph and its flag
    afterWord (State.reset.setI 0x050) 0xD015
      (fun t => ([0, 1, 2, 3, 4].map fun x => pixelAt t.fb x 1, t.reg 15, t.pc)) =
      some ([true, false, false, true, false], 0x00, 0x202) := by decide

theorem test_drw_collision :  -- D-4
    afterWord (withPixels (withBytes (State.reset.setI 0x300) [(0x300, 0xC0)]) [(0, 0)]) 0xD011
      (fun t => (pixelAt t.fb 0 0, pixelAt t.fb 1 0, t.reg 15)) = some (false, true, 0x01) := by decide

/-! ## Timers and random -/

theorem test_ldVxDt :  -- T-1
    afterWord (State.reset.setDt 0x3C) 0xF307 (fun t => (t.reg 3, t.pc)) = some (0x3C, 0x202) := by decide

theorem test_ldDtVx :  -- T-2
    afterWord (withRegs State.reset [(0, 0x05)]) 0xF015 (fun t => t.dt) = some 0x05 := by decide

theorem test_ldStVx :  -- T-3
    afterWord (withRegs State.reset [(1, 0x02)]) 0xF118 (fun t => (t.st, soundActive t)) = some (0x02, true) := by
  decide

/-- The mask alone: under mask 0 every draw gives 0. -/
theorem test_rnd_mask_zero : afterWord State.reset 0xC400 (fun t => t.draws) = some 1 ∧  -- T-5b
    ∀ b : Byte, b &&& 0x00 = 0x00 := by decide

theorem test_rnd :  -- T-5, with the draw left free
    exec (.rnd 4 0x0F) State.reset =
      .next ((State.reset.setReg 4 (Config.randByte 0 &&& 0x0F)).countDraw.advance) := rfl

/-! ## Input -/

theorem test_skp :  -- K-1, K-1b
    afterWord (withRegs ((State.reset.setPc 0x300).setKey 0xA true) [(2, 0x0A)]) 0xE29E (fun t => t.pc) =
      some 0x304 ∧
    afterWord (withRegs (State.reset.setPc 0x300) [(2, 0x0A)]) 0xE29E (fun t => t.pc) = some 0x302 := by
  decide

theorem test_sknp :  -- K-2, K-2b
    afterWord (withRegs (State.reset.setPc 0x300) [(2, 0x0A)]) 0xE2A1 (fun t => t.pc) = some 0x304 ∧
    afterWord (withRegs ((State.reset.setPc 0x300).setKey 0xA true) [(2, 0x0A)]) 0xE2A1 (fun t => t.pc) =
      some 0x302 := by decide

theorem test_ldVxK :  -- K-4
    afterWord (State.reset.setPc 0x220) 0xF30A (fun t => (t.wait, t.pc)) = some (some 3, 0x220) := by decide

theorem test_ldVxK_at_issue :  -- K-4i
    afterWord ((base { Config.defaults with keywaitPc := .atIssue }).setPc 0x220) 0xF30A
      (fun t => (t.wait, t.pc)) = some (some 3, 0x222) := by decide

/-! ## STEP, fetch and errors -/

theorem test_unknown_opcode :  -- E-1
    afterStep State.reset (fun t => (t.halt, t.pc)) = some (some (.unknownOpcode 0x0000), 0x200) := by decide

theorem test_sys_no_op :  -- E-2
    afterStep (base { Config.defaults with sys := .noOp }) (fun t => (t.halt, t.pc)) = some (none, 0x202) := by
  decide

theorem test_misaligned_fetch :  -- E-3
    afterWord (State.reset.setPc 0x201) 0x00E0 (fun t => (t.halt, t.pc)) =
      some (some (.misalignedFetch 0x201), 0x201) := by decide

theorem test_fetch_wraps :  -- E-4
    afterStep (withBytes ((base { Config.defaults with oddPc := .fetch }).setPc 0xFFF)
      [(0xFFF, 0x60), (0x000, 0x01)]) (fun t => (t.reg 0, t.pc)) = some (0x01, 0x1001) := by decide

theorem test_fetch_out_of_range :  -- E-4f
    afterStep (withBytes ((base { Config.defaults with oddPc := .fetch, addr := .fault }).setPc 0xFFF)
      [(0xFFF, 0x60), (0x000, 0x01)]) (fun t => t.halt) = some (some (.addressOutOfRange 0x1000)) := by decide

theorem test_misaligned_before_range :  -- E-5
    afterStep ((base { Config.defaults with addr := .fault }).setPc 0x1001) (fun t => t.halt) =
      some (some (.misalignedFetch 0x1001)) := by decide

theorem test_core : core.reset = State.reset ∧ core.step = step := ⟨rfl, rfl⟩

/-! ## Host transactions -/

theorem test_load :  -- R262, on the bytes of vector L-5
    afterAll (withRegs State.reset [(3, 9)]) [.load [0xF0, 0x0A]]
      (fun t => (t.reg 3, t.byteAt 0x200, t.byteAt 0x201, t.pc)) = some (0x00, 0xF0, 0x0A, 0x200) := by decide

theorem test_load_too_large :  -- L-2
    loadResponse (load (List.replicate 3585 0x12#8) State.reset).2 = .loadError (.programTooLarge 3585) ∧
    (load (List.replicate 3585 0x12#8) (withRegs State.reset [(3, 9)])).1.reg 3 = 0x00 := by
  have h : programFits (List.replicate 3585 0x12#8) = false := test_program_too_large.1
  simp only [load, h, Bool.false_eq_true, if_false, List.length_replicate]
  decide

theorem test_tick_stops_at_zero :  -- T-3, T-6
    afterAll ((State.reset.setDt 1).setSt 3) [.tick, .tick] (fun t => (t.dt, t.st)) = some (0, 1) := by decide

theorem test_key_resolves_wait :  -- K-4
    afterAll ((State.reset.setPc 0x220).setWait (some 3)) [.step, .key 7 false, .tick, .key 7 true]
      (fun t => (t.reg 3, t.keyDown 7, t.wait, t.pc)) = some (0x07, true, none, 0x222) := by decide

/-! ## The statements' hypotheses are met

One theorem for each statement of Certificates/Slice0/Obligations.lean that has hypotheses, one conjunct for
each of its clauses, at a value where clauses meet. -/

theorem test_witness_EncodingDecodedWord : ∃ i, decode 0x8AB4 = some i := ⟨_, rfl⟩

theorem test_witness_DecodingFindsTheOneAcceptingRow :
    (∃ r ∈ opcodeRows, r.accepts 0x8AB4 = true) ∧ (∃ i, decode 0x8AB4 = some i) ∧ decode 0x8018 = none :=
  ⟨by decide, ⟨_, rfl⟩, by decide⟩

/-- An ordinary word at the reset `PC`, and one whose second byte resolves to address 0. -/
theorem test_witness_StepExecutes :
    (∃ s : State, ∃ i, s.halt = none ∧ s.wait = none ∧ (s.pc.toNat % 2 = 1 → s.cfg.oddPc = .fetch) ∧
      resolve s.cfg s.pc.toNat = .ok 0x200 ∧ resolve s.cfg (s.pc.toNat + 1) = .ok 0x201 ∧
      decodeBytes [s.byteAt 0x200, s.byteAt 0x201] = .ok (i, [])) ∧
    (∃ s : State, ∃ i, s.halt = none ∧ s.wait = none ∧ (s.pc.toNat % 2 = 1 → s.cfg.oddPc = .fetch) ∧
      resolve s.cfg s.pc.toNat = .ok 0xFFF ∧ resolve s.cfg (s.pc.toNat + 1) = .ok 0x000 ∧
      decodeBytes [s.byteAt 0xFFF, s.byteAt 0x000] = .ok (i, [])) :=
  ⟨⟨withBytes State.reset [(0x200, 0x63), (0x201, 0xAB)], .ldImm 3 0xAB, by decide⟩,
   ⟨withBytes ((base { Config.defaults with oddPc := .fetch }).setPc 0xFFF) [(0xFFF, 0x60), (0x000, 0x01)],
    .ldImm 0 0x01, by decide⟩⟩

theorem test_witness_HaltedStep : ∃ s : State, s.halt = some (.stackOverflow 0x200) :=
  ⟨State.reset.raise (.stackOverflow 0x200), rfl⟩

theorem test_witness_WaitingStep :
    (∃ s : State, s.halt = none ∧ s.wait = some 3) ∧
    (∃ s t : State, s.cfg.keywaitPc = .atResolve ∧ exec (.ldVxK 3) s = .next t) :=
  ⟨⟨State.reset.setWait (some 3), rfl, rfl⟩, ⟨State.reset, _, rfl, rfl⟩⟩

/-- Odd `PC` under both policies; `PC` at 0xFFF, just above it, and an ordinary fetch. -/
theorem test_witness_Fetch :
    (∃ s : State, s.pc.toNat % 2 = 1 ∧ s.cfg.oddPc = .fault) ∧
    (∃ s : State, (s.pc.toNat % 2 = 1 → s.cfg.oddPc = .fetch) ∧ s.cfg.addr = .fault ∧ 0xFFF < s.pc.toNat) ∧
    (∃ s : State, (s.pc.toNat % 2 = 1 → s.cfg.oddPc = .fetch) ∧ s.cfg.addr = .fault ∧ s.pc.toNat = 0xFFF) ∧
    (∃ s : State, (s.pc.toNat % 2 = 1 → s.cfg.oddPc = .fetch) ∧ resolve s.cfg s.pc.toNat = .ok 0xFFE ∧
      resolve s.cfg (s.pc.toNat + 1) = .ok 0xFFF) :=
  ⟨⟨State.reset.setPc 0x201, by decide⟩,
   ⟨(base { Config.defaults with addr := .fault }).setPc 0x1000, by decide⟩,
   ⟨(base { Config.defaults with addr := .fault, oddPc := .fetch }).setPc 0xFFF, by decide⟩,
   ⟨State.reset.setPc 0xFFE, by decide⟩⟩

/-- A 0NNN word under each value of `P_SYS`, and another word of no row. -/
theorem test_witness_WordOfNoRow :
    (∃ s : State, s.halt = none ∧ s.wait = none ∧ fetch s = .ok 0x0123 ∧ decode 0x0123 = none ∧
      s.cfg.sys = .noOp) ∧
    (∃ s : State, s.halt = none ∧ s.wait = none ∧ fetch s = .ok 0x0123 ∧ decode 0x0123 = none ∧
      s.cfg.sys = .unknown) ∧
    (∃ s : State, s.halt = none ∧ s.wait = none ∧ fetch s = .ok 0x8018 ∧ decode 0x8018 = none ∧
      s.cfg.sys = .noOp) :=
  ⟨⟨withBytes (base { Config.defaults with sys := .noOp }) [(0x200, 0x01), (0x201, 0x23)], by decide⟩,
   ⟨withBytes State.reset [(0x200, 0x01), (0x201, 0x23)], by decide⟩,
   ⟨withBytes (base { Config.defaults with sys := .noOp }) [(0x200, 0x80), (0x201, 0x18)], by decide⟩⟩

theorem test_witness_FailingStep :
    ∃ s t : State, s.halt = none ∧ step s = .next t ∧ t.halt = some (.unknownOpcode 0x0000) :=
  ⟨State.reset, _, rfl, rfl, by decide⟩

theorem test_witness_NoTransactionBlocks : ∃ s : State, s.interpreter = .waitingForKey 3 :=
  ⟨State.reset.setWait (some 3), rfl⟩

/-- A state that meets the invariant and whose memory is not empty. -/
def storedState : State := withRegs (withBytes (State.reset.setI 0x300) [(0x300, 0x01), (0xFFF, 0x02)]) [(0, 7)]

theorem storedState_inv : storedState.Inv :=
  ⟨by decide, by decide, by decide, .inl rfl, fun _ => by decide⟩

theorem test_witness_StepKeepsTheInvariant :
    ∃ s t : State, s.Inv ∧ step s = .next t ∧ s.mem ≠ [] :=
  ⟨storedState, _, storedState_inv, rfl, by decide⟩

theorem test_witness_TransactionsKeepTheInvariant :
    ∃ s : State, ∃ p, s.Inv ∧ transact (.load [0xF0, 0x0A]) s = .next p :=
  ⟨storedState, _, storedState_inv, rfl⟩

theorem test_witness_ResetMeetsTheInvariant : ∃ c : Config, c.wf = true ∧ c.fontBase = 0x1B0 :=
  ⟨{ Config.defaults with fontBase := 0x1B0 }, by decide⟩

theorem test_witness_Reachable :
    ∃ s : State, Config.defaults.wf = true ∧ Reachable Config.defaults s ∧ s.dt = 0x00 :=
  ⟨tick (State.resetFor Config.defaults 0), by decide, .transacted .tick (.constructed 0) rfl, by decide⟩

theorem test_witness_ReservedRegion :
    ∃ s t : State, s.cfg.reservedWrite = .fault ∧ step s = .next t ∧ s.Inv :=
  ⟨storedState, _, rfl, rfl, storedState_inv⟩

/-- A STEP that draws, and a CONSTRUCT over a lit pixel. -/
theorem test_witness_OnlyClsAndDrw :
    (∃ s s' : State, ∃ r, transact .step s = .next (s', r) ∧ s'.fb ≠ s.fb) ∧
    (∃ s s' : State, ∃ r, transact .construct s = .next (s', r) ∧ s'.fb ≠ s.fb) :=
  ⟨⟨(withPixels State.reset [(0, 0)]).withFetchWord 16 0x00E0, _, _, rfl, by decide⟩,
   ⟨withPixels State.reset [(0, 0)], _, _, rfl, by decide⟩⟩

theorem test_witness_OnlyCallAndRet :
    ∃ s s' : State, ∃ r, transact .step s = .next (s', r) ∧ s'.stack ≠ s.stack :=
  ⟨State.reset.withFetchWord 16 0x2400, _, _, rfl, by decide⟩

theorem test_witness_OnlyTheirInstructionAndTick :
    (∃ s s' : State, ∃ r, transact .tick s = .next (s', r) ∧ s'.dt ≠ s.dt ∧ s'.st ≠ s.st) ∧
    (∃ s s' : State, ∃ r, transact .step s = .next (s', r) ∧ s'.dt ≠ s.dt) ∧
    (∃ s s' : State, ∃ r, transact .step s = .next (s', r) ∧ s'.st ≠ s.st) :=
  ⟨⟨(State.reset.setDt 1).setSt 1, _, _, rfl, by decide⟩,
   ⟨(withRegs State.reset [(1, 5)]).withFetchWord 16 0xF115, _, _, rfl, by decide⟩,
   ⟨(withRegs State.reset [(1, 5)]).withFetchWord 16 0xF118, _, _, rfl, by decide⟩⟩

theorem test_witness_OnlyKeyEvents :
    ∃ s s' : State, ∃ r, transact (.key 7 true) s = .next (s', r) ∧ s'.key ≠ s.key :=
  ⟨State.reset, _, _, rfl, by decide⟩

/-- A wait begun, an error, a wait resolved, and a halt cleared. -/
theorem test_witness_InterpreterChanges :
    (∃ s s' : State, ∃ r, transact .step s = .next (s', r) ∧ s'.interpreter = .waitingForKey 3 ∧
      s.interpreter = .running) ∧
    (∃ s s' : State, ∃ r, transact .step s = .next (s', r) ∧ s'.interpreter ≠ s.interpreter ∧
      r = .cpuError (.unknownOpcode 0x0000)) ∧
    (∃ s s' : State, ∃ r, transact (.key 7 true) s = .next (s', r) ∧ s.interpreter = .waitingForKey 3 ∧
      s'.interpreter ≠ s.interpreter) ∧
    (∃ s s' : State, ∃ r, transact (.load []) s = .next (s', r) ∧ s'.interpreter ≠ s.interpreter) :=
  ⟨⟨State.reset.withFetchWord 16 0xF30A, _, _, rfl, by decide⟩, ⟨State.reset, _, _, rfl, by decide⟩,
   ⟨State.reset.setWait (some 3), _, _, rfl, by decide⟩,
   ⟨State.reset.raise (.stackOverflow 0x200), _, _, rfl, by decide⟩⟩

/-- 0xFFF and 0x1000 fall under different clauses of R52. -/
theorem test_witness_Resolve :
    resolve Config.defaults 0xFFF = .ok 0xFFF ∧ resolve Config.defaults 0x1000 = .ok 0x000 ∧
    resolve { Config.defaults with addr := .clamp } 0x1000 = .ok 0xFFF ∧
    resolve { Config.defaults with addr := .fault } 0x1000 = .error (.addressOutOfRange 0x1000) := by decide

/-- An access of several bytes that resolves past 0xFFF, one that fails there, and a write that succeeds. -/
theorem test_witness_Resolve_access :
    (∀ k < 2, resolve Config.defaults (0xFFF + k) = .ok ((0xFFF + k) % 4096)) ∧
    (∃ s : State, s.cfg.addr = .fault ∧ 0xFFF < 0xFFF + 1 ∧ ∀ j < 1, resolve s.cfg (0xFFF + j) = .ok 0xFFF) ∧
    (∃ s t : State, s.cfg.addr = .clamp ∧ Memory.wf s.fontBase s.mem = true ∧
      memWrite s 0xFFF [0x12, 0x34] = .ok t) :=
  ⟨by decide, ⟨base { Config.defaults with addr := .fault }, by decide⟩,
   ⟨base { Config.defaults with addr := .clamp }, _, rfl, by decide, rfl⟩⟩

theorem test_witness_ReadingBack :
    (∃ s t : State, Memory.wf s.fontBase s.mem = true ∧ [0x12#8, 0x34#8].length ≤ 4096 ∧
      (s.cfg.addr = .clamp → 0xFFE + [0x12#8, 0x34#8].length ≤ 0x1000) ∧
      memWrite s 0xFFE [0x12, 0x34] = .ok t) ∧
    (∃ s t : State, s.cfg.addr = .clamp ∧ Memory.wf s.fontBase s.mem = true ∧
      memWrite s 0xFFE [0x12, 0x34] = .ok t) :=
  ⟨⟨State.reset, _, by decide, by decide, by decide, rfl⟩,
   ⟨base { Config.defaults with addr := .clamp }, _, rfl, by decide, rfl⟩⟩

/-! ### Bytes an instruction may store or read -/

theorem storable_of_program {c : Config} {a : Nat} (h : 0x200 ≤ a) (h' : a ≤ 0xFFF) : Storable c a :=
  ⟨a, resolve_of_le h', fun hlt => absurd hlt (by omega)⟩

theorem readable_of_le {c : Config} {a : Nat} (h : a ≤ 0xFFF) : Readable c a := ⟨a, resolve_of_le h⟩

/-- All of the bytes may be stored up to 0xFFF; the byte at 0x1000 and the byte at 0x1FF may not. -/
theorem test_witness_WriteChecks :
    (∀ k < [0x12#8, 0x34#8].length, Storable Config.defaults (0xFFE + k)) ∧
    (∃ c : Config, c.addr = .fault ∧ 0xFFF < 0xFFF + 1 ∧ ∀ j < 1, Storable c (0xFFF + j)) ∧
    (∃ c : Config, resolve c (0x1FF + 0) = .ok 0x1FF ∧ c.reservedWrite = .fault ∧
      ∀ j < 0, Storable c (0x1FF + j)) :=
  ⟨fun _ hk => storable_of_program (by omega) (by simp at hk; omega),
   ⟨{ Config.defaults with addr := .fault }, rfl, by decide, fun _ hj => storable_of_program (by omega) (by omega)⟩,
   ⟨Config.defaults, rfl, rfl, fun _ hj => absurd hj (by omega)⟩⟩

theorem test_witness_CanonicalMemories :
    ∃ m : Memory, m ≠ [] ∧ Memory.wf 0x50 m = true ∧ ∀ a, memGet 0x50 m a = memGet 0x50 m a :=
  ⟨storedState.mem, by decide, by decide, fun _ => rfl⟩

theorem test_witness_StoreBlock :
    (∃ s : State, Memory.wf s.fontBase s.mem = true ∧ (∀ k ≤ (15 : Reg).val, Storable s.cfg (s.i.toNat + k)) ∧
      s.i.toNat + 15 = 0xFFF) ∧
    (∃ s : State, Memory.wf s.fontBase s.mem = true ∧ (∀ j < 1, Storable s.cfg (s.i.toNat + j)) ∧
      s.cfg.addr = .fault ∧ 0xFFF < s.i.toNat + 1) ∧
    (∃ s : State, Memory.wf s.fontBase s.mem = true ∧ (∀ j < 0, Storable s.cfg (s.i.toNat + j)) ∧
      resolve s.cfg (s.i.toNat + 0) = .ok 0x1FF ∧ s.cfg.reservedWrite = .fault) :=
  ⟨⟨State.reset.setI 0xFF0, by decide, fun k hk => storable_of_program (a := 0xFF0 + k) (by omega)
      (by simp at hk; omega), by decide⟩,
   ⟨(base { Config.defaults with addr := .fault }).setI 0xFFF, by decide,
    fun j hj => storable_of_program (a := 0xFFF + j) (by omega) (by omega), by decide⟩,
   ⟨State.reset.setI 0x1FF, by decide, fun _ hj => absurd hj (by omega), by decide⟩⟩

/-- The last write to an address stands: the hypothesis of that clause, under `Clamp`, where the last of two
bytes shares address 0xFFF with the first. -/
theorem test_witness_StoreBlock_last :
    ∃ s : State, resolve s.cfg (s.i.toNat + (1 : Reg).val) = .ok 0xFFF ∧
      resolve s.cfg (s.i.toNat + (0 : Reg).val) = .ok 0xFFF ∧
      ∀ j : Reg, 1 < j → j ≤ 1 → resolve s.cfg (s.i.toNat + j.val) ≠ .ok 0xFFF :=
  ⟨(base { Config.defaults with addr := .clamp }).setI 0xFFF, by decide, by decide,
   fun _ h h' => absurd h (not_lt.mpr h')⟩

theorem test_witness_LoadBlock :
    (∃ s : State, (∀ k ≤ (15 : Reg).val, Readable s.cfg (s.i.toNat + k)) ∧ s.i.toNat + 15 = 0xFFF) ∧
    (∃ s : State, (∀ j < 1, Readable s.cfg (s.i.toNat + j)) ∧ s.cfg.addr = .fault ∧ 0xFFF < s.i.toNat + 1) :=
  ⟨⟨State.reset.setI 0xFF0, fun k hk => readable_of_le (a := 0xFF0 + k) (by simp at hk; omega), by decide⟩,
   ⟨(base { Config.defaults with addr := .fault }).setI 0xFFF,
    fun j hj => readable_of_le (a := 0xFFF + j) (by omega), by decide⟩⟩

theorem test_witness_StoreDigits :
    (∃ s : State, Memory.wf s.fontBase s.mem = true ∧ (∀ k < 3, Storable s.cfg (s.i.toNat + k)) ∧
      s.i.toNat + 2 = 0xFFF) ∧
    (∃ s : State, Memory.wf s.fontBase s.mem = true ∧ (∀ j < 2, Storable s.cfg (s.i.toNat + j)) ∧
      s.cfg.addr = .fault ∧ 0xFFF < s.i.toNat + 2) ∧
    (∃ s : State, Memory.wf s.fontBase s.mem = true ∧ (∀ j < 0, Storable s.cfg (s.i.toNat + j)) ∧
      resolve s.cfg (s.i.toNat + 0) = .ok 0x1FE ∧ s.cfg.reservedWrite = .fault) :=
  ⟨⟨State.reset.setI 0xFFD, by decide, fun k hk => storable_of_program (a := 0xFFD + k) (by omega) (by omega),
    by decide⟩,
   ⟨(base { Config.defaults with addr := .fault }).setI 0xFFE, by decide,
    fun j hj => storable_of_program (a := 0xFFE + j) (by omega) (by omega), by decide⟩,
   ⟨State.reset.setI 0x1FE, by decide, fun _ hj => absurd hj (by omega), by decide⟩⟩

/-! ### Register instructions -/

/-- VF as the destination under each value of `P_LOGIC_VF`. -/
theorem test_witness_Logic :
    (∃ s : State, (Instr.orReg 15 1, 1, or) ∈ [(Instr.orReg 15 1, 1, or), (Instr.andReg 15 1, 2, and),
      (Instr.xorReg 15 1, 3, xor)] ∧ s.cfg.logicVf = .unchanged) ∧
    (∃ s : State, (Instr.xorReg 15 1, 3, xor) ∈ [(Instr.orReg 15 1, 1, or), (Instr.andReg 15 1, 2, and),
      (Instr.xorReg 15 1, 3, xor)] ∧ s.cfg.logicVf = .reset) :=
  ⟨⟨State.reset, by simp, rfl⟩, ⟨base { Config.defaults with logicVf := .reset }, by simp, rfl⟩⟩

theorem test_witness_AddRegisters : (14 : Reg) ≠ 15 := by decide

theorem test_witness_Subtractions :
    ∃ s : State, (Instr.sub 0 1, 5, (s.reg 0).toNat, (s.reg 1).toNat) ∈
        [(Instr.sub 0 1, 5, (s.reg 0).toNat, (s.reg 1).toNat),
         (Instr.subn 0 1, 7, (s.reg 1).toNat, (s.reg 0).toNat)] ∧ (s.reg 0).toNat = 5 ∧ (0 : Reg) ≠ 15 :=
  ⟨withRegs State.reset [(0, 5), (1, 7)], by decide⟩

theorem test_witness_Shifts :
    (∃ s : State, s.cfg.shiftSrc = .vy ∧
      0x40 = if s.cfg.shiftSrc = .vy then (s.reg 1).toNat else (s.reg 0).toNat) ∧
    (∃ s : State, s.cfg.shiftSrc = .vx ∧
      0x81 = if s.cfg.shiftSrc = .vy then (s.reg 1).toNat else (s.reg 0).toNat) :=
  ⟨⟨withRegs State.reset [(0, 0x81), (1, 0x40)], by decide⟩,
   ⟨withRegs (base { Config.defaults with shiftSrc := .vx }) [(0, 0x81), (1, 0x40)], by decide⟩⟩

theorem test_witness_Jump :
    ∃ s : State, s.interpreter = .running ∧ s.cfg.oddPc = .fault ∧ (0xFFF#12).toNat % 2 = 1 :=
  ⟨State.reset, by decide⟩

/-- Depth 15 and depth 16. -/
theorem test_witness_Call :
    (∃ s : State, s.stack.length < 16 ∧ s.stack.length = 15) ∧ (∃ s : State, s.stack.length = 16) :=
  ⟨⟨State.reset.setStack (List.replicate 15 0x202), by decide⟩,
   ⟨State.reset.setStack (List.replicate 16 0x202), by decide⟩⟩

theorem test_witness_Return :
    (∃ s : State, s.stack = [0x204] ++ [0x202]) ∧ (∃ s : State, s.stack = []) :=
  ⟨⟨State.reset.setStack [0x204, 0x202], rfl⟩, ⟨State.reset, rfl⟩⟩

/-- Digits 15 and 16 under both policies. -/
theorem test_witness_LoadFont :
    (∃ s : State, (s.reg 3).toNat ≤ 15 ∧ s.cfg.fontDigit = .fault) ∧
    (∃ s : State, (s.reg 3).toNat = 16 ∧ s.cfg.fontDigit = .mask) ∧
    (∃ s : State, 15 < (s.reg 3).toNat ∧ s.cfg.fontDigit = .fault) :=
  ⟨⟨withRegs State.reset [(3, 15)], by decide⟩,
   ⟨withRegs (base { Config.defaults with fontDigit := .mask }) [(3, 16)], by decide⟩,
   ⟨withRegs State.reset [(3, 16)], by decide⟩⟩

/-- Key values 15 and 16 under both policies. -/
theorem test_witness_KeySkips :
    (∃ s : State, (15 : KeyNo).val = (s.reg 2).toNat % 16 ∧ (s.reg 2).toNat ≤ 15 ∧ s.cfg.keyIndex = .fault) ∧
    (∃ s : State, (0 : KeyNo).val = (s.reg 2).toNat % 16 ∧ (s.reg 2).toNat = 16 ∧ s.cfg.keyIndex = .mask) ∧
    (∃ s : State, 15 < (s.reg 2).toNat ∧ s.cfg.keyIndex = .fault) :=
  ⟨⟨withRegs State.reset [(2, 15)], by decide⟩,
   ⟨withRegs (base { Config.defaults with keyIndex := .mask }) [(2, 16)], by decide⟩,
   ⟨withRegs State.reset [(2, 16)], by decide⟩⟩

theorem test_witness_KeyWait :
    ∃ t u : State, ∃ r, exec (.ldVxK 3) State.reset = .next t ∧ transact (.key 7 true) t = .next (u, r) ∧
      u.wait ≠ some 3 :=
  ⟨_, _, _, rfl, rfl, by decide⟩

/-! ### Drawing -/

/-- Fifteen rows up to 0xFFF may be read; with a sixteenth address, 0x1000, the read fails. -/
theorem test_witness_Draw :
    (∃ s : State, (∀ k < (15 : Count).val, Readable s.cfg (s.i.toNat + k)) ∧ s.i.toNat + 14 = 0xFFF) ∧
    (∃ s : State, (∀ j < 1, Readable s.cfg (s.i.toNat + j)) ∧ s.cfg.addr = .fault ∧ 0xFFF < s.i.toNat + 1) :=
  ⟨⟨State.reset.setI 0xFF1, fun k hk => readable_of_le (a := 0xFF1 + k) (by simp at hk; omega), by decide⟩,
   ⟨(base { Config.defaults with addr := .fault }).setI 0xFFF,
    fun j hj => readable_of_le (a := 0xFFF + j) (by omega), by decide⟩⟩

/-- A pixel the sprite covers, lit before the draw, and one it does not cover. -/
theorem test_witness_Draw_covers :
    (∃ s : State, SpriteCovers s 0 1 5 0 0 ∧ pixelAt s.fb 0 0 = true) ∧
    (∃ s : State, SpriteCovers s 0 1 5 0 0 ∧ pixelAt s.fb 0 0 = false) ∧
    (∃ s : State, ¬ SpriteCovers s 0 1 0 0 0) :=
  ⟨⟨withPixels (State.reset.setI 0x050) [(0, 0)], ⟨0, 0, 0x50, by decide, by decide, rfl, by decide, And.intro rfl rfl⟩,
     by decide⟩,
   ⟨State.reset.setI 0x050, ⟨0, 0, 0x50, by decide, by decide, rfl, by decide, And.intro rfl rfl⟩, by decide⟩,
   ⟨State.reset, fun ⟨_, _, _, h, _⟩ => absurd h (by omega)⟩⟩

theorem test_witness_DrawingTwice :
    ∃ s t t' u : State, (∀ k < (5 : Count).val, Readable s.cfg (s.i.toNat + k)) ∧
      exec (.drw 0 1 5) s = .next t ∧ t'.fb = t.fb ∧ t'.cfg = s.cfg ∧ t'.i = s.i ∧
      (∀ a, t'.byteAt a = s.byteAt a) ∧ t'.reg 0 = s.reg 0 ∧ t'.reg 1 = s.reg 1 ∧
      exec (.drw 0 1 5) t' = .next u ∧ t.reg 15 = 0x00 :=
  ⟨State.reset.setI 0x050, _, _, _, fun k hk => readable_of_le (a := 0x050 + k) (by simp at hk; omega), rfl, rfl,
   rfl, rfl, fun _ => rfl, rfl, rfl, rfl, by decide⟩

/-! ### Transactions -/

theorem test_witness_KeyEvent :
    (∃ s : State, s.wait = some 3 ∧ s.cfg.keywaitPc = .atResolve) ∧
    (∃ s : State, s.wait = some 3 ∧ s.cfg.keywaitPc = .atIssue) ∧ (∃ s : State, s.wait = none) :=
  ⟨⟨State.reset.setWait (some 3), by decide⟩,
   ⟨(base { Config.defaults with keywaitPc := .atIssue }).setWait (some 3), by decide⟩, ⟨State.reset, rfl⟩⟩

/-- 3584 bytes fit; 3585 do not. -/
theorem test_witness_Load :
    (∃ bs : List Byte, bs.length ≤ 4096 - 512 ∧ bs.length = 3584) ∧
    (∃ bs : List Byte, 4096 - 512 < bs.length ∧ bs.length = 3585) :=
  ⟨⟨List.replicate 3584 0x12, by rw [List.length_replicate]; decide⟩,
   ⟨List.replicate 3585 0x12, by rw [List.length_replicate]; decide⟩⟩

theorem test_witness_Reloading :
    ∃ s s' : State, s.cfg = s'.cfg ∧ s.v ≠ s'.v ∧ s.draws ≠ s'.draws :=
  ⟨State.reset, (withRegs State.reset [(3, 9)]).countDraw, by decide⟩

theorem test_witness_ResetGives :
    (∃ s t : State, transact .construct s = .next (t, .done) ∧ s.v ≠ t.v) ∧ ∃ t : State, t = State.reset :=
  ⟨⟨withRegs State.reset [(3, 9)], _, rfl, by decide⟩, ⟨_, rfl⟩⟩

end Sys2Proof.Tests
end

section
/-! No transaction blocks (spec/00_scope.md R6): what STEP does in each interpreter state, and that every
instruction, and so every transaction, answers a next state. -/

namespace Sys2Proof.Machine

/-! ### STEP in each interpreter state -/

theorem step_of_halt {s : State} {e : CpuError} (h : s.halt = some e) : step s = .next s := by
  simp only [step, h]

theorem step_of_wait {s : State} {x : Reg} (hhalt : s.halt = none) (hwait : s.wait = some x) :
    step s = .next s := by
  simp only [step, hhalt, hwait]

theorem step_of_fetch_error {s : State} {e : CpuError} (hhalt : s.halt = none) (hwait : s.wait = none)
    (hf : fetch s = .error e) : step s = .next (s.raise e) := by
  simp only [step, hhalt, hwait, hf]

theorem step_of_fetch_ok {s : State} {w : Word} (hhalt : s.halt = none) (hwait : s.wait = none)
    (hf : fetch s = .ok w) : step s = execDecoded (decodeUnder s.cfg.sys w) s := by
  simp only [step, hhalt, hwait, hf]

theorem interpreter_eq_waitingForKey {s : State} {x : Reg} :
    s.interpreter = .waitingForKey x ↔ s.halt = none ∧ s.wait = some x := by
  unfold State.interpreter
  split <;> simp_all

/-- The STEP transaction's answer, from that of `step`. -/
theorem transact_step_of_next {s s' : State} (h : step s = .next s') :
    transact .step s = .next (s', stepResponse s') := by
  simp only [transact, h]

/-! ### Completion -/

/-- An instruction that may raise completes: an error is a next state too (R231). -/
theorem finish_completes (s : State) (r : Except CpuError State) : ∃ t, finish s r = .next t := by
  cases r with
  | ok t => exact ⟨t, finish_ok s t⟩
  | error e => exact ⟨s.raise e, finish_error s e⟩

/-- R103: every instruction answers a next state. The cases are the ways a meaning can end: through `finish`,
in one state, or in one state for each value of `P_KEYWAIT_PC`. -/
theorem exec_completes (i : Instr) (s : State) : ∃ t, exec i s = .next t := by
  cases i with
  | ret | call | drw | skp | sknp | ldFVx | ldBVx | ldMemVx | ldVxMem => exact finish_completes s _
  | ldVxK x =>
    cases hc : s.cfg.keywaitPc with
    | atIssue => exact ⟨(s.setWait (some x)).advance, by simp only [exec, execLdVxK, hc]⟩
    | atResolve => exact ⟨s.setWait (some x), by simp only [exec, execLdVxK, hc]⟩
  | cls | jp | jpV0 | ldI | addIVx => exact ⟨_, rfl⟩
  | seImm | sneImm | seReg | sneReg => exact ⟨_, rfl⟩
  | ldImm | ldReg | addImm => exact ⟨_, rfl⟩
  | orReg | andReg | xorReg | addReg | sub | subn | shr | shl => exact ⟨_, rfl⟩
  | ldVxDt | ldDtVx | ldStVx | rnd => exact ⟨_, rfl⟩

/-- R85, R86, R102: whatever a word decoded to completes. -/
theorem execDecoded_completes (d : Decoded) (s : State) : ∃ t, execDecoded d s = .next t := by
  cases d with
  | instr i => exact exec_completes i s
  | sysNoOp w => exact ⟨s.advance, rfl⟩
  | unknown w => exact ⟨s.raise (.unknownOpcode w), rfl⟩

/-- R100: STEP completes in every state. -/
theorem step_completes (s : State) : ∃ t, step s = .next t := by
  cases hhalt : s.halt with
  | some e => exact ⟨s, step_of_halt hhalt⟩
  | none =>
    cases hwait : s.wait with
    | some x => exact ⟨s, step_of_wait hhalt hwait⟩
    | none =>
      cases hf : fetch s with
      | error e => exact ⟨s.raise e, step_of_fetch_error hhalt hwait hf⟩
      | ok w =>
        rw [step_of_fetch_ok hhalt hwait hf]
        exact execDecoded_completes _ s

/-- R6: every transaction completes in every state. STEP is the only one that could do otherwise. -/
theorem transact_completes (tr : Transaction) (s : State) : ∃ s' r, transact tr s = .next (s', r) := by
  cases tr with
  | step =>
    obtain ⟨s', hs⟩ := step_completes s
    exact ⟨s', stepResponse s', transact_step_of_next hs⟩
  | construct | load | tick | key | snapshot | sound => exact ⟨_, _, rfl⟩

/-- Settles O12: transactions and instructions complete, and a STEP during a key-wait changes nothing. -/
theorem noTransactionBlocks : Obligations.NoTransactionBlocks := by
  refine ⟨transact_completes, fun s x hx => ?_, exec_completes⟩
  obtain ⟨hhalt, hwait⟩ := interpreter_eq_waitingForKey.mp hx
  exact step_of_wait hhalt hwait

end Sys2Proof.Machine
end

section
/-! STEP during a key-wait, and where FX0A leaves `PC` (spec/40_pipeline.md R104). -/

namespace Sys2Proof.Machine

/-- STEP reports an error only from the `Halt` latch. -/
theorem stepResponse_of_halt_none {s : State} (h : s.halt = none) : stepResponse s = .ok := by
  simp only [stepResponse, h]

theorem exec_ldVxK_of_atResolve {s : State} (x : Reg) (hc : s.cfg.keywaitPc = .atResolve) :
    exec (.ldVxK x) s = .next (s.setWait (some x)) := by
  simp only [exec, execLdVxK, hc]

/-- R104: the state is kept by `step_of_wait`, and the answer is `Ok` because `Halt` is clear in it. -/
theorem transact_step_of_wait {s : State} {x : Reg} (hhalt : s.halt = none) (hwait : s.wait = some x) :
    transact .step s = .next (s, .ok) := by
  rw [transact_step_of_next (step_of_wait hhalt hwait), stepResponse_of_halt_none hhalt]

/-- Settles O8: a STEP during a key-wait answers `Ok` and keeps the state; under `AtResolve` the issue of
FX0A sets the marker and no other part. -/
theorem waitingStepIsANoOp : Obligations.WaitingStepIsANoOp := by
  refine ⟨fun s r hhalt hwait => transact_step_of_wait hhalt hwait, fun s t x hc ht => ?_⟩
  obtain rfl : s.setWait (some x) = t := by
    rw [exec_ldVxK_of_atResolve x hc] at ht
    exact Host.Outcome.next.inj ht
  exact ⟨s.setWait_wait (some x), s.setWait_pc (some x)⟩

end Sys2Proof.Machine
end

section
/-! The immediate and move instructions (spec/41_immediate_move.md): each writes one register and advances
`PC`. -/

namespace Sys2Proof.Machine

/-! ### A register write followed by the advance of `PC` -/

/-- R106: `advance` adds 2 to `PC`, modulo 2^16. -/
theorem advance_pc_toNat (s : State) : s.advance.pc.toNat = (s.pc.toNat + 2) % 0x10000 := by
  rw [State.advance_pc, BitVec.toNat_add]
  rfl

/-- Advancing is a skip whose condition does not hold. -/
theorem advance_unchanged (s : State) : UnchangedBut [.pc] s s.advance := skipIf_unchanged s false

theorem setReg_unchanged (s : State) (x : Reg) (b : Byte) : UnchangedBut [.reg x] s (s.setReg x b) := by
  intro p hp
  cases p with
  | reg y =>
    have hy : y ≠ x := by simpa using hp
    exact (s.setReg_reg x y b).trans (if_neg hy)
  | _ => rfl

/-- Two changes in turn leave alone what neither lists. -/
theorem UnchangedBut.trans {l l' : List Part} {s t u : State} (h : UnchangedBut l s t)
    (h' : UnchangedBut l' t u) : UnchangedBut (l ++ l') s u := by
  intro p hp
  obtain ⟨hl, hl'⟩ := not_or.mp (List.mem_append.not.mp hp)
  have hst := h p hl
  have htu := h' p hl'
  cases p <;> exact htu.trans hst

/-- What an instruction does whose meaning is one register write and the advance of `PC`. -/
theorem exec_setReg_advance {i : Instr} {s : State} {x : Reg} {b : Byte}
    (h : exec i s = .next (s.setReg x b).advance) :
    ∃ t, exec i s = .next t ∧ t.reg x = b ∧ t.pc.toNat = (s.pc.toNat + 2) % 0x10000 ∧
      UnchangedBut [.reg x, .pc] s t := by
  refine ⟨_, h, ?_, advance_pc_toNat (s.setReg x b),
    (setReg_unchanged s x b).trans (advance_unchanged (s.setReg x b))⟩
  rw [State.advance_reg, State.setReg_reg, if_pos rfl]

/-! ### 6XNN and 8XY0 -/

theorem exec_ldImm (x : Reg) (nn : Byte) (s : State) :
    exec (.ldImm x nn) s = .next (s.setReg x nn).advance := rfl

theorem exec_ldReg (x y : Reg) (s : State) :
    exec (.ldReg x y) s = .next (s.setReg x (s.reg y)).advance := rfl

theorem decode_ldImm (x : Reg) (nn : Byte) : decode (formatXNN 0x6 x nn) = some (.ldImm x nn) := by
  simp [decode]

theorem decode_ldReg (x y : Reg) : decode (formatXYN 0x8 x y 0x0) = some (.ldReg x y) := by
  simp [decode, decodeArith]

/-- Settles O27: the word is the one format XNN builds, and the effect is that of a register write. -/
theorem loadImmediateWritesTheByte : Obligations.LoadImmediateWritesTheByte := by
  intro x nn s
  refine ⟨?_, exec_setReg_advance (exec_ldImm x nn s)⟩
  rw [Nat.mul_comm 0x100]
  exact decode_ldImm x nn

/-- Settles O28: the word is the one format XY builds, and the effect is that of a register write. -/
theorem loadRegisterCopiesTheSource : Obligations.LoadRegisterCopiesTheSource := by
  intro x y s
  refine ⟨?_, exec_setReg_advance (exec_ldReg x y s)⟩
  rw [Nat.mul_comm 0x100, Nat.mul_comm 0x10]
  exact decode_ldReg x y

end Sys2Proof.Machine
end

section
/-! The logic, add and shift instructions (spec/42_arithmetic.md): the words 8XYf, and the two ways an
instruction writes its result and VF. -/

namespace Sys2Proof.Machine

/-! ### The words of leading nibble 8 -/

/-- The claims add up the fields of a word 8XYf in another order than format XY does. -/
theorem ofNat_eq_formatXYN {n f : Nat} (x y : Reg) (h : n = 0x8000 + 0x100 * x.val + 0x10 * y.val + f) :
    BitVec.ofNat 16 n = formatXYN 0x8 x y f := by
  rw [formatXYN, h, Nat.mul_comm 0x100, Nat.mul_comm 0x10]

theorem decode_orReg (x y : Reg) : decode (formatXYN 0x8 x y 0x1) = some (.orReg x y) := by
  simp [decode, decodeArith]

theorem decode_andReg (x y : Reg) : decode (formatXYN 0x8 x y 0x2) = some (.andReg x y) := by
  simp [decode, decodeArith]

theorem decode_xorReg (x y : Reg) : decode (formatXYN 0x8 x y 0x3) = some (.xorReg x y) := by
  simp [decode, decodeArith]

theorem decode_addReg (x y : Reg) : decode (formatXYN 0x8 x y 0x4) = some (.addReg x y) := by
  simp [decode, decodeArith]

theorem decode_shr (x y : Reg) : decode (formatXYN 0x8 x y 0x6) = some (.shr x y) := by
  simp [decode, decodeArith]

theorem decode_shl (x y : Reg) : decode (formatXYN 0x8 x y 0xE) = some (.shl x y) := by
  simp [decode, decodeArith]

/-! ### A result with a flag -/

theorem setFlag_unchanged (s : State) (b : Byte) : UnchangedBut [.reg 15] s (s.setFlag b) :=
  setReg_unchanged s regVF b

/-- R130: what an instruction does that writes its result and then the flag. The flag write is the last, so
the result stands unless the destination is VF. -/
theorem exec_flaggedResult {i : Instr} {s : State} {x : Reg} {v flag : Byte}
    (h : exec i s = flaggedResult x v flag s) :
    ∃ t, exec i s = .next t ∧ (x ≠ 15 → t.reg x = v) ∧ t.reg 15 = flag ∧
      t.pc.toNat = (s.pc.toNat + 2) % 0x10000 ∧ UnchangedBut [.reg x, .reg 15, .pc] s t := by
  have hframe := ((setReg_unchanged s x v).trans (setFlag_unchanged _ flag)).trans (advance_unchanged _)
  refine ⟨_, h, fun hx => ?_, ?_, advance_pc_toNat _, hframe⟩
  · rw [State.advance_reg, State.setFlag_reg, if_neg (show x ≠ regVF from hx), State.setReg_reg, if_pos rfl]
  · exact ((s.setReg x v).setFlag_reg 15 flag).trans (if_pos rfl)

/-! ### A result of a logic instruction -/

theorem logicResult_of_unchanged {s : State} (x : Reg) (v : Byte) (h : s.cfg.logicVf = .unchanged) :
    logicResult x v s = .next (s.setReg x v).advance := by
  rw [logicResult, State.logicFlag_of_unchanged (s := s.setReg x v) h]

theorem logicResult_of_reset {s : State} (x : Reg) (v : Byte) (h : s.cfg.logicVf = .reset) :
    logicResult x v s = flaggedResult x v 0x00 s := by
  rw [logicResult, State.logicFlag_of_reset (s := s.setReg x v) h, flaggedResult]

/-- R132: under `Unchanged` a logic instruction is one register write, under `Reset` a result with the flag
0x00. -/
theorem exec_logicResult {i : Instr} {s : State} {x : Reg} {v : Byte} (h : exec i s = logicResult x v s) :
    ∃ t, exec i s = .next t ∧ ((x = 15 → s.cfg.logicVf = .unchanged) → t.reg x = v) ∧
      (s.cfg.logicVf = .reset → t.reg 15 = 0x00#8 ∧ UnchangedBut [.reg x, .reg 15, .pc] s t) ∧
      (s.cfg.logicVf = .unchanged → UnchangedBut [.reg x, .pc] s t) ∧
      t.pc.toNat = (s.pc.toNat + 2) % 0x10000 := by
  cases hc : s.cfg.logicVf with
  | unchanged =>
    rw [logicResult_of_unchanged x v hc] at h
    obtain ⟨t, ht, hx, hpc, hframe⟩ := exec_setReg_advance h
    exact ⟨t, ht, fun _ => hx, nofun, fun _ => hframe, hpc⟩
  | reset =>
    rw [logicResult_of_reset x v hc] at h
    obtain ⟨t, ht, hx, hflag, hpc, hframe⟩ := exec_flaggedResult h
    exact ⟨t, ht, fun hne => hx (fun h15 => nomatch hne h15), fun _ => ⟨hflag, hframe⟩, nofun, hpc⟩

/-! ### 8XY1, 8XY2 and 8XY3 -/

/-- R132 to R134: the word and the result of each of the three logic instructions. -/
theorem logicInstr_cases {x y : Reg} (s : State) {i : Instr} {f : Nat} {op : Bool → Bool → Bool}
    (h : (i, f, op) ∈ [(Instr.orReg x y, 1, or), (Instr.andReg x y, 2, and), (Instr.xorReg x y, 3, xor)]) :
    decode (formatXYN 0x8 x y f) = some i ∧
    ∃ v, exec i s = logicResult x v s ∧
      ∀ k, v.getLsbD k = op ((s.reg x).getLsbD k) ((s.reg y).getLsbD k) := by
  simp only [List.mem_cons, List.not_mem_nil, or_false, Prod.mk.injEq] at h
  obtain ⟨rfl, rfl, rfl⟩ | ⟨rfl, rfl, rfl⟩ | ⟨rfl, rfl, rfl⟩ := h
  · exact ⟨decode_orReg x y, _, rfl, fun _ => BitVec.getLsbD_or⟩
  · exact ⟨decode_andReg x y, _, rfl, fun _ => BitVec.getLsbD_and⟩
  · exact ⟨decode_xorReg x y, _, rfl, fun _ => BitVec.getLsbD_xor⟩

/-- Settles O30: the three instructions differ in the result only, whose bits are `logicInstr_cases`. -/
theorem logicInstructionsCombineBitwise : Obligations.LogicInstructionsCombineBitwise := by
  intro x y s i f op h
  obtain ⟨hdecode, v, hexec, hbits⟩ := logicInstr_cases s h
  obtain ⟨t, ht, hx, hreset, hunchanged, hpc⟩ := exec_logicResult hexec
  refine ⟨?_, t, ht, fun hne k _ => ?_, hreset, hunchanged, hpc⟩
  · rw [ofNat_eq_formatXYN x y rfl, hdecode]
  · rw [hx hne, hbits k]

/-! ### 8XY4 -/

theorem flagByte_toNat (b : Bool) : (flagByte b).toNat = if b then 1 else 0 := by
  cases b <;> rfl

theorem carryFlag_toNat (a b : Byte) : (carryFlag a b).toNat = if 255 < a.toNat + b.toNat then 1 else 0 := by
  simp only [carryFlag, flagByte_toNat, decide_eq_true_eq]

theorem exec_addReg (x y : Reg) (s : State) :
    exec (.addReg x y) s = flaggedResult x (s.reg x + s.reg y) (carryFlag (s.reg x) (s.reg y)) s := rfl

/-- Settles O31: 8XY4 is a result with a flag, the sum and the carry. -/
theorem addRegistersSetsTheCarry : Obligations.AddRegistersSetsTheCarry := by
  intro x y s
  obtain ⟨t, ht, hx, hflag, hpc, hframe⟩ := exec_flaggedResult (exec_addReg x y s)
  refine ⟨?_, t, ht, fun hne => ?_, ?_, hpc, hframe⟩
  · rw [ofNat_eq_formatXYN x y (f := 0x4) (by omega), decode_addReg]
  · rw [hx hne, BitVec.toNat_add]
  · rw [hflag, carryFlag_toNat]

/-! ### 8XY6 and 8XYE -/

theorem shiftOperand_toNat (s : State) (x y : Reg) :
    (shiftOperand s x y).toNat = if s.cfg.shiftSrc = .vy then (s.reg y).toNat else (s.reg x).toNat := by
  unfold shiftOperand
  split <;> simp [*]

theorem shiftedOutRight_toNat (v : Byte) : (shiftedOutRight v).toNat = v.toNat % 2 := by
  rw [shiftedOutRight, BitVec.toNat_and]
  exact Nat.and_one_is_mod v.toNat

/-- Bit 7 of a byte is its quotient by 128, which is below 2. -/
theorem shiftedOutLeft_toNat (v : Byte) : (shiftedOutLeft v).toNat = v.toNat / 128 := by
  have hlt : v.toNat < 256 := v.isLt
  calc (shiftedOutLeft v).toNat = (v >>> 7).toNat % 2 := shiftedOutRight_toNat (v >>> 7)
    _ = v.toNat / 128 % 2 := by rw [BitVec.toNat_ushiftRight, Nat.shiftRight_eq_div_pow]
    _ = v.toNat / 128 := Nat.mod_eq_of_lt (by omega)

theorem exec_shr (x y : Reg) (s : State) : exec (.shr x y) s =
    flaggedResult x (shiftOperand s x y >>> 1) (shiftedOutRight (shiftOperand s x y)) s := rfl

theorem exec_shl (x y : Reg) (s : State) : exec (.shl x y) s =
    flaggedResult x (shiftOperand s x y <<< 1) (shiftedOutLeft (shiftOperand s x y)) s := rfl

/-- Settles O33: each shift is a result with a flag, both taken from the operand `P_SHIFT_SRC` names. -/
theorem shiftsSetTheBitShiftedOut : Obligations.ShiftsSetTheBitShiftedOut := by
  intro x y s src hsrc
  rw [← shiftOperand_toNat] at hsrc
  subst hsrc
  constructor
  · obtain ⟨t, ht, hx, hflag, hpc, hframe⟩ := exec_flaggedResult (exec_shr x y s)
    refine ⟨?_, t, ht, fun hne => ?_, ?_, hpc, hframe⟩
    · rw [ofNat_eq_formatXYN x y (f := 0x6) (by omega), decode_shr]
    · rw [hx hne, BitVec.toNat_ushiftRight, Nat.shiftRight_eq_div_pow, pow_one]
    · rw [hflag, shiftedOutRight_toNat]
  · obtain ⟨t, ht, hx, hflag, hpc, hframe⟩ := exec_flaggedResult (exec_shl x y s)
    refine ⟨?_, t, ht, fun hne => ?_, ?_, hpc, hframe⟩
    · rw [ofNat_eq_formatXYN x y (f := 0xE) (by omega), decode_shl]
    · rw [hx hne, BitVec.toNat_shiftLeft, Nat.shiftLeft_eq, pow_one, Nat.mul_comm]
    · rw [hflag, shiftedOutLeft_toNat]

end Sys2Proof.Machine
end

section
/-! The jump and the return (spec/43_control_flow.md R150, R153): the frames of a write of `PC` and of the
stack, the fetch after an odd target, and what `Pop` answers. -/

namespace Sys2Proof.Machine

theorem setPc_unchanged (s : State) (w : Word) : UnchangedBut [.pc] s (s.setPc w) := by
  intro p hp
  cases p with
  | pc => simp at hp
  | _ => rfl

theorem setStack_unchanged (s : State) (l : List Word) : UnchangedBut [.stack] s (s.setStack l) := by
  intro p hp
  cases p with
  | stack => simp at hp
  | _ => rfl

/-! ### 1NNN -/

/-- R10: zero extension keeps the number. -/
theorem zext16_toNat (a : Addr) : (zext16 a).toNat = a.toNat := by
  have hlt : a.toNat < 4096 := a.isLt
  rw [zext16, BitVec.toNat_ofNat, Nat.mod_eq_of_lt (by omega)]

theorem decode_jp (nnn : Addr) : decode (formatNNN 0x1 nnn) = some (.jp nnn) := by
  simp [decode]

theorem exec_jp (nnn : Addr) (s : State) : exec (.jp nnn) s = .next (s.setPc (zext16 nnn)) := rfl

theorem interpreter_eq_running {s : State} : s.interpreter = .running ↔ s.halt = none ∧ s.wait = none := by
  unfold State.interpreter
  split <;> simp_all

/-- R101: the alignment check comes first. -/
theorem fetch_of_misaligned {s : State} (hpc : s.pc.toNat % 2 = 1) (hc : s.cfg.oddPc = .fault) :
    fetch s = .error (.misalignedFetch s.pc) :=
  if_pos ⟨hpc, hc⟩

/-- Settles O34: the jump writes `PC` alone, so the block still runs, and the next STEP fetches at the
target. -/
theorem jumpSetsThePc : Obligations.JumpSetsThePc := by
  intro nnn s
  refine ⟨decode_jp nnn, _, exec_jp nnn s, zext16_toNat nnn, setPc_unchanged s _, fun hrun hc hodd => ?_⟩
  obtain ⟨hhalt, hwait⟩ := interpreter_eq_running.mp hrun
  have htarget : (s.setPc (zext16 nnn)).pc.toNat % 2 = 1 := by rw [State.setPc_pc, zext16_toNat, hodd]
  exact ⟨_, step_of_fetch_error hhalt hwait (fetch_of_misaligned htarget hc), State.raise_halt _ _⟩

/-! ### 00EE -/

theorem pop_of_append {s : State} {below : List Word} {v : Word} (h : s.stack = below ++ [v]) :
    pop s = .ok (v, s.setStack below) := by
  simp [pop, h]

theorem pop_of_nil {s : State} (h : s.stack = []) : pop s = .error (.stackUnderflow s.pc) := by
  simp [pop, h]

theorem exec_ret (s : State) : exec .ret s = finish s ((pop s).map fun p => p.2.setPc p.1) := rfl

/-- Settles O37: the return is what `Pop` answers, its value written into `PC` or its error latched. -/
theorem returnPopsThePc : Obligations.ReturnPopsThePc := by
  refine ⟨rfl, fun s below v hs => ⟨(s.setStack below).setPc v, ?_, rfl, rfl, ?_⟩, fun s hs => ?_⟩
  · rw [exec_ret, pop_of_append hs, finish_map_ok]
  · exact (setStack_unchanged s below).trans (setPc_unchanged _ v)
  · apply latches_of_exec
    rw [exec_ret, pop_of_nil hs, finish_map_error]

end Sys2Proof.Machine
end

section
/-! The instructions that load `I` (spec/44_memory_index.md R170, R175): each writes `I` and advances `PC`. -/

namespace Sys2Proof.Machine

/-! ### A write of `I` followed by the advance of `PC` -/

theorem setI_unchanged (s : State) (w : Word) : UnchangedBut [.index] s (s.setI w) := by
  intro p hp
  cases p with
  | index => simp at hp
  | _ => rfl

/-- What an instruction does whose meaning is a write of `I` and the advance of `PC`. -/
theorem exec_setI_advance {i : Instr} {s : State} {w : Word} (h : exec i s = .next (s.setI w).advance) :
    ∃ t, exec i s = .next t ∧ t.i.toNat = w.toNat ∧ t.pc.toNat = (s.pc.toNat + 2) % 0x10000 ∧
      UnchangedBut [.index, .pc] s t :=
  ⟨_, h, rfl, advance_pc_toNat (s.setI w), (setI_unchanged s w).trans (advance_unchanged (s.setI w))⟩

/-! ### ANNN -/

theorem decode_ldI (nnn : Addr) : decode (formatNNN 0xA nnn) = some (.ldI nnn) := by
  simp [decode]

theorem exec_ldI (nnn : Addr) (s : State) : exec (.ldI nnn) s = .next (s.setI (zext16 nnn)).advance := rfl

/-- Settles O40: the word is the one format NNN builds, and `I` is written with the zero extension of NNN. -/
theorem loadIndexSetsI : Obligations.LoadIndexSetsI := by
  intro nnn s
  obtain ⟨t, ht, hi, hpc, hframe⟩ := exec_setI_advance (exec_ldI nnn s)
  exact ⟨decode_ldI nnn, t, ht, hi.trans (zext16_toNat nnn), hpc, hframe⟩

/-! ### FX29 -/

/-- A digit up to 15 is its own low nibble, so one equation covers both ways to a digit. -/
theorem fontDigit_of_le_or_mask {c : Config} {v : Byte} (h : v.toNat ≤ 15 ∨ c.fontDigit = .mask) :
    fontDigit c v = .ok (v.toNat % 16) := by
  by_cases hv : v.toNat ≤ 15
  · rw [fontDigit_of_le hv, Nat.mod_eq_of_lt (by omega)]
  · have hmask := h.resolve_left hv
    simp only [fontDigit, hv, if_false, hmask]

theorem fontDigit_of_fault {c : Config} {v : Byte} (hv : 15 < v.toNat) (hc : c.fontDigit = .fault) :
    fontDigit c v = .error (.fontDigitOutOfRange v) := by
  simp only [fontDigit, Nat.not_le.mpr hv, if_false, hc]

/-- The glyph of a digit starts below 2^16, as `P_FONT_BASE` has 12 bits. -/
theorem glyphAddress_toNat (c : Config) {d : Nat} (hd : d < 16) :
    (glyphAddress c d).toNat = c.fontBase.toNat + 5 * d := by
  have hbase : c.fontBase.toNat < 4096 := c.fontBase.isLt
  rw [glyphAddress, BitVec.toNat_ofNat, Nat.mod_eq_of_lt (by omega)]

/-- The claims add up the fields of a word FXf in another order than format X does. -/
theorem ofNat_eq_formatX {n f : Nat} (x : Reg) (h : n = 0xF000 + 0x100 * x.val + f) :
    BitVec.ofNat 16 n = formatX 0xF x f := by
  rw [formatX, h, Nat.mul_comm 0x100]

theorem decode_ldFVx (x : Reg) : decode (formatX 0xF x 0x29) = some (.ldFVx x) := by
  simp [decode, decodeMisc]

theorem exec_ldFVx (x : Reg) (s : State) : exec (.ldFVx x) s =
    finish s ((fontDigit s.cfg (s.reg x)).map fun d => (s.setI (glyphAddress s.cfg d)).advance) := rfl

theorem exec_ldFVx_of_digit {x : Reg} {s : State} {d : Nat} (h : fontDigit s.cfg (s.reg x) = .ok d) :
    exec (.ldFVx x) s = .next (s.setI (glyphAddress s.cfg d)).advance := by
  rw [exec_ldFVx, h, finish_map_ok]

theorem exec_ldFVx_of_error {x : Reg} {s : State} {e : CpuError} (h : fontDigit s.cfg (s.reg x) = .error e) :
    exec (.ldFVx x) s = .next (s.raise e) := by
  rw [exec_ldFVx, h, finish_map_error]

/-- Settles O45: FX29 is what the digit's check answers, `I` written with the glyph's address or the error
latched. -/
theorem loadFontPointsAtTheGlyph : Obligations.LoadFontPointsAtTheGlyph := by
  refine fun x s => ⟨?_, fun h => ?_, fun hv hc => ?_⟩
  · rw [ofNat_eq_formatX x (f := 0x29) (by omega), decode_ldFVx]
  · obtain ⟨t, ht, hi, hpc, hframe⟩ := exec_setI_advance (exec_ldFVx_of_digit (fontDigit_of_le_or_mask h))
    exact ⟨t, ht, hi.trans (glyphAddress_toNat s.cfg (Nat.mod_lt _ (by decide))), hpc, hframe⟩
  · exact latches_of_exec (exec_ldFVx_of_error (fontDigit_of_fault hv hc))

end Sys2Proof.Machine
end

section
/-! Clearing the display (spec/45_display.md R190): the frame of a write of the framebuffer, and 00E0. -/

namespace Sys2Proof.Machine

theorem pixel_mem_everyPixel (px : Fin 64) (py : Fin 32) : Part.pixel px py ∈ everyPixel :=
  List.mem_flatMap.mpr ⟨px, List.mem_finRange px, List.mem_map_of_mem (List.mem_finRange py)⟩

theorem setFb_unchanged (s : State) (fb : Raster) : UnchangedBut everyPixel s (s.setFb fb) := by
  intro p hp
  cases p with
  | pixel px py => exact absurd (pixel_mem_everyPixel px py) hp
  | _ => rfl

/-! ### 00E0 -/

theorem decode_cls : decode 0x00E0 = some .cls := by decide

theorem exec_cls (s : State) : exec .cls s = .next (s.setFb darkRaster).advance := rfl

/-- Settles O46: 00E0 writes the raster whose pixels are all off and advances `PC`, and the two writes leave
every other part alone. -/
theorem clearTurnsEveryPixelOff : Obligations.ClearTurnsEveryPixelOff := by
  refine ⟨decode_cls, fun s => ⟨_, exec_cls s, pixelAt_darkRaster, advance_pc_toNat (s.setFb darkRaster), ?_⟩⟩
  have hframe : UnchangedBut (everyPixel ++ [.pc]) s (s.setFb darkRaster).advance :=
    (setFb_unchanged s darkRaster).trans (advance_unchanged (s.setFb darkRaster))
  exact hframe.mono fun _ hp => List.perm_append_comm.mem_iff.mp hp

end Sys2Proof.Machine
end

section
/-! The timer instructions (spec/46_timers_random.md R210 to R212): the frames of a write of `DT` and of `ST`,
when SOUND is true, and FX07, FX15, FX18. -/

namespace Sys2Proof.Machine

/-! ### A write of a timer -/

theorem setDt_unchanged (s : State) (b : Byte) : UnchangedBut [.delayTimer] s (s.setDt b) := by
  intro p hp
  cases p with
  | delayTimer => simp at hp
  | _ => rfl

theorem setSt_unchanged (s : State) (b : Byte) : UnchangedBut [.soundTimer] s (s.setSt b) := by
  intro p hp
  cases p with
  | soundTimer => simp at hp
  | _ => rfl

/-- R242: SOUND is a test of the sound timer. -/
theorem soundActive_iff (s : State) : soundActive s = true ↔ s.st.toNat ≠ 0 :=
  bne_iff_ne.trans (not_congr BitVec.toNat_inj.symm)

/-! ### FX07 -/

theorem decode_ldVxDt (x : Reg) : decode (formatX 0xF x 0x07) = some (.ldVxDt x) := by
  simp [decode, decodeMisc]

theorem exec_ldVxDt (x : Reg) (s : State) : exec (.ldVxDt x) s = .next (s.setReg x s.dt).advance := rfl

/-- Settles O49: the word is the one format X builds, and the effect is that of a register write. -/
theorem loadFromDelayTimer : Obligations.LoadFromDelayTimer := by
  intro x s
  refine ⟨?_, exec_setReg_advance (exec_ldVxDt x s)⟩
  rw [ofNat_eq_formatX x (f := 0x07) (by omega), decode_ldVxDt]

/-! ### FX15 and FX18 -/

theorem decode_ldDtVx (x : Reg) : decode (formatX 0xF x 0x15) = some (.ldDtVx x) := by
  simp [decode, decodeMisc]

theorem decode_ldStVx (x : Reg) : decode (formatX 0xF x 0x18) = some (.ldStVx x) := by
  simp [decode, decodeMisc]

theorem exec_ldDtVx (x : Reg) (s : State) : exec (.ldDtVx x) s = .next (s.setDt (s.reg x)).advance := rfl

theorem exec_ldStVx (x : Reg) (s : State) : exec (.ldStVx x) s = .next (s.setSt (s.reg x)).advance := rfl

/-- Settles O50: each word is the one format X builds, each instruction writes its timer and advances `PC`,
and SOUND tests the sound timer just written. -/
theorem storeToTimers : Obligations.StoreToTimers := by
  refine fun x s => ⟨?_, ?_, ⟨_, exec_ldDtVx x s, rfl, advance_pc_toNat (s.setDt (s.reg x)), ?_⟩,
    ⟨_, exec_ldStVx x s, rfl, advance_pc_toNat (s.setSt (s.reg x)), ?_, ?_⟩⟩
  · rw [ofNat_eq_formatX x (f := 0x15) (by omega), decode_ldDtVx]
  · rw [ofNat_eq_formatX x (f := 0x18) (by omega), decode_ldStVx]
  · exact (setDt_unchanged s (s.reg x)).trans (advance_unchanged (s.setDt (s.reg x)))
  · exact (setSt_unchanged s (s.reg x)).trans (advance_unchanged (s.setSt (s.reg x)))
  · rw [soundActive_iff, State.advance_st, State.setSt_st]

end Sys2Proof.Machine
end

section
/-! The skips by the key latch (spec/47_input.md R220 to R222): what `KeyIdx` answers, what a skip does to
`PC`, and the two instructions as one shape with a condition on the key. -/

namespace Sys2Proof.Machine

/-! ### The key a value names -/

/-- A value up to 15 is its own low nibble, so one equation covers both ways to a key. -/
theorem keyIndex_of_le_or_mask {c : Config} {v : Byte} {k : KeyNo} (hk : k.val = v.toNat % 16)
    (h : v.toNat ≤ 15 ∨ c.keyIndex = .mask) : keyIndex c v = .ok k := by
  have hkey : Fin.ofNat 16 (v.toNat % 16) = k := hk ▸ Fin.ofNat_val_eq_self k
  by_cases hv : v.toNat ≤ 15
  · rw [keyIndex_of_le hv, ← hkey, Nat.mod_eq_of_lt (by omega)]
  · have hmask := h.resolve_left hv
    simp only [keyIndex, hv, if_false, hmask, hkey]

theorem keyIndex_of_fault {c : Config} {v : Byte} (hv : 15 < v.toNat) (hc : c.keyIndex = .fault) :
    keyIndex c v = .error (.keyIndexOutOfRange v) := by
  simp only [keyIndex, Nat.not_le.mpr hv, if_false, hc]

/-! ### A skip by the key a register names -/

/-- R106: a skip adds 4 or 2 to `PC`, modulo 2^16. -/
theorem skipIf_pc_toNat (s : State) (c : Bool) :
    (s.skipIf c).pc.toNat = (s.pc.toNat + if c then 4 else 2) % 0x10000 := by
  cases c with
  | true => exact BitVec.toNat_add s.pc 4
  | false => exact BitVec.toNat_add s.pc 2

/-- Where the register names a key, the instruction skips by its condition on that key. -/
theorem exec_keySkip {i : Instr} {s : State} {x : Reg} {cond : KeyNo → Bool} {k : KeyNo}
    (h : exec i s = finish s ((keyIndex s.cfg (s.reg x)).map fun k => s.skipIf (cond k)))
    (hk : keyIndex s.cfg (s.reg x) = .ok k) :
    ∃ t, exec i s = .next t ∧ UnchangedBut [.pc] s t ∧
      t.pc.toNat = (s.pc.toNat + if cond k then 4 else 2) % 0x10000 := by
  rw [hk, finish_map_ok] at h
  exact ⟨_, h, skipIf_unchanged s (cond k), skipIf_pc_toNat s (cond k)⟩

/-- Where the register names no key, the instruction latches the error. -/
theorem latches_keySkip {i : Instr} {s : State} {x : Reg} {cond : KeyNo → Bool} {e : CpuError}
    (h : exec i s = finish s ((keyIndex s.cfg (s.reg x)).map fun k => s.skipIf (cond k)))
    (he : keyIndex s.cfg (s.reg x) = .error e) : Latches i s e := by
  rw [he, finish_map_error] at h
  exact latches_of_exec h

/-! ### EX9E and EXA1 -/

/-- The claims write the fields of a word in another order than format X does. -/
theorem ofNat_eq_formatX_of_sum {n o f : Nat} (x : Reg) (h : n = o * 0x1000 + x.val * 0x100 + f) :
    BitVec.ofNat 16 n = formatX o x f := by
  rw [formatX, h]

theorem decode_skp (x : Reg) : decode (formatX 0xE x 0x9E) = some (.skp x) := by
  simp [decode]

theorem decode_sknp (x : Reg) : decode (formatX 0xE x 0xA1) = some (.sknp x) := by
  simp [decode]

theorem exec_skp (x : Reg) (s : State) : exec (.skp x) s =
    finish s ((keyIndex s.cfg (s.reg x)).map fun k => s.skipIf (s.keyDown k)) := rfl

theorem exec_sknp (x : Reg) (s : State) : exec (.sknp x) s =
    finish s ((keyIndex s.cfg (s.reg x)).map fun k => s.skipIf (!s.keyDown k)) := rfl

/-- Settles O52: each word is the one format X builds, and each instruction is what `KeyIdx` answers, a skip by
the latch of the key (negated for SKNP) or the error latched. -/
theorem keySkipsTestTheLatch : Obligations.KeySkipsTestTheLatch := by
  refine fun x s => ⟨?_, ?_, fun k hk h => ?_, fun hv hc => ?_⟩
  · rw [ofNat_eq_formatX_of_sum x (o := 0xE) (f := 0x9E) (by omega), decode_skp]
  · rw [ofNat_eq_formatX_of_sum x (o := 0xE) (f := 0xA1) (by omega), decode_sknp]
  · have hkey := keyIndex_of_le_or_mask hk h
    refine ⟨exec_keySkip (exec_skp x s) hkey, ?_⟩
    obtain ⟨t, ht, hframe, hpc⟩ := exec_keySkip (exec_sknp x s) hkey
    exact ⟨t, ht, hframe, by simpa only [Bool.not_iff_not, ite_not] using hpc⟩
  · have herror := keyIndex_of_fault hv hc
    exact ⟨latches_keySkip (exec_skp x s) herror, latches_keySkip (exec_sknp x s) herror⟩

end Sys2Proof.Machine
end

section
/-! TICK and KEY (spec/60_exceptions.md R240, R243): a timer after one tick, the frames of a write of the
latch and of the key-wait marker, what the resolution of a key-wait writes, and the two transactions. -/

namespace Sys2Proof.Machine

/-! ### TICK -/

/-- The subtraction of naturals stops at zero, as the timer does. -/
theorem countDown_toNat (b : Byte) : (countDown b).toNat = b.toNat - 1 := by
  unfold countDown
  split
  · exact BitVec.toNat_sub_of_le (BitVec.le_def.mpr ‹0 < b.toNat›)
  · omega

theorem tick_unchanged (s : State) : UnchangedBut [.delayTimer, .soundTimer] s (tick s) :=
  (setDt_unchanged s (countDown s.dt)).trans (setSt_unchanged (s.setDt (countDown s.dt)) (countDown s.st))

/-- Settles O54: TICK writes each timer with its count-down, and nothing else. -/
theorem tickCountsDown : Obligations.TickCountsDown :=
  fun s => ⟨tick s, rfl, countDown_toNat s.dt, countDown_toNat s.st, tick_unchanged s⟩

/-! ### A write of the latch and of the key-wait marker -/

theorem setKey_unchanged (s : State) (k : KeyNo) (down : Bool) : UnchangedBut [.key k] s (s.setKey k down) := by
  intro p hp
  cases p with
  | key n =>
    have hn : n ≠ k := by simpa using hp
    exact (s.setKey_keyDown k n down).trans (if_neg hn)
  | _ => rfl

theorem setWait_unchanged (s : State) (r : Option Reg) : UnchangedBut [.wait] s (s.setWait r) := by
  intro p hp
  cases p with
  | wait => simp at hp
  | _ => rfl

/-! ### The resolution of a key-wait -/

section
variable (k : KeyNo) (r : Reg) (s : State)

/-- The register and the marker are written under both values of `P_KEYWAIT_PC`; `AtResolve` also advances
`PC`. -/
theorem resolveWait_eq : resolveWait k r s =
    if s.cfg.keywaitPc = .atResolve then ((s.setReg r (BitVec.ofNat 8 k.val)).setWait none).advance
    else (s.setReg r (BitVec.ofNat 8 k.val)).setWait none := by
  unfold resolveWait
  cases s.cfg.keywaitPc <;> rfl

theorem resolveWait_reg_toNat : ((resolveWait k r s).reg r).toNat = k.val := by
  have hreg : (resolveWait k r s).reg r = BitVec.ofNat 8 k.val := by
    rw [resolveWait_eq]
    split <;> simp
  rw [hreg, BitVec.toNat_ofNat, Nat.mod_eq_of_lt (by omega)]

theorem resolveWait_wait : (resolveWait k r s).wait = none := by
  rw [resolveWait_eq]
  split <;> rfl

theorem resolveWait_keyDown (n : KeyNo) : (resolveWait k r s).keyDown n = s.keyDown n := by
  rw [resolveWait_eq]
  split <;> rfl

theorem resolveWait_pc_toNat : (resolveWait k r s).pc.toNat =
    if s.cfg.keywaitPc = .atResolve then (s.pc.toNat + 2) % 0x10000 else s.pc.toNat := by
  rw [resolveWait_eq]
  split
  · exact advance_pc_toNat _
  · rfl

theorem resolveWait_unchanged : UnchangedBut [.reg r, .wait, .pc] s (resolveWait k r s) := by
  have hwritten : UnchangedBut [.reg r, .wait] s ((s.setReg r (BitVec.ofNat 8 k.val)).setWait none) :=
    (setReg_unchanged s r _).trans (setWait_unchanged _ none)
  rw [resolveWait_eq]
  split
  · exact hwritten.trans (advance_unchanged _)
  · exact hwritten.mono fun _ hp => List.mem_append_left [Part.pc] hp

end

/-! ### KEY -/

theorem keyEvent_of_release_or_no_wait {pressed : Bool} {s : State} (k : KeyNo)
    (h : pressed = false ∨ s.wait = none) : keyEvent k pressed s = s.setKey k pressed := by
  unfold keyEvent
  rcases h with rfl | hwait
  · rfl
  · rw [hwait]
    cases pressed <;> rfl

theorem keyEvent_of_press {s : State} {r : Reg} (k : KeyNo) (hwait : s.wait = some r) :
    keyEvent k true s = resolveWait k r (s.setKey k true) := by
  simp only [keyEvent, hwait]

/-- The latch holds the event whether or not the event resolves a wait. -/
theorem keyEvent_keyDown (k : KeyNo) (pressed : Bool) (s : State) :
    (keyEvent k pressed s).keyDown k = pressed := by
  have hlatch : (s.setKey k pressed).keyDown k = pressed := (s.setKey_keyDown k k pressed).trans (if_pos rfl)
  cases pressed with
  | false => rwa [keyEvent_of_release_or_no_wait k (.inl rfl)]
  | true =>
    cases hwait : s.wait with
    | none => rwa [keyEvent_of_release_or_no_wait k (.inr hwait)]
    | some r => rwa [keyEvent_of_press k hwait, resolveWait_keyDown]

/-- Settles O55: a release, or a press with no wait pending, is the write of the latch alone; a press during a
wait is that write and then the resolution. -/
theorem keyEventLatchesAndResolvesTheWait : Obligations.KeyEventLatchesAndResolvesTheWait := by
  refine fun k pressed s => ⟨keyEvent k pressed s, rfl, keyEvent_keyDown k pressed s, fun h => ?_, ?_⟩
  · rw [keyEvent_of_release_or_no_wait k h]
    exact setKey_unchanged s k pressed
  · rintro r rfl hwait
    rw [keyEvent_of_press k hwait]
    exact ⟨resolveWait_reg_toNat k r _, resolveWait_wait k r _, resolveWait_pc_toNat k r _,
      (setKey_unchanged s k true).trans (resolveWait_unchanged k r _)⟩

end Sys2Proof.Machine
end

section
/-! LOAD (spec/70_reset_and_hazards.md R262): its two outcomes, by the length of the program, and what memory
reads as after an installation over the reset state. -/

namespace Sys2Proof.Machine

/-! ### The two outcomes -/

theorem transact_load_of_fits {bs : List Byte} (s : State) (h : bs.length ≤ 4096 - 512) :
    transact (.load bs) s =
      .next ((construct s).setMem (installBytes s.fontBase [] programBase bs), .ok) := by
  simp only [transact, load, if_pos (programFits_iff.mpr h), loadResponse]

theorem transact_load_of_too_large {bs : List Byte} (s : State) (h : 4096 - 512 < bs.length) :
    transact (.load bs) s = .next (construct s, .loadError (.programTooLarge bs.length)) := by
  have hfits : ¬ programFits bs = true := fun hf => h.not_ge (programFits_iff.mp hf)
  simp only [transact, load, if_neg hfits, loadResponse]

/-! ### The installed bytes and the frame -/

/-- A program that fits ends within memory, so each byte of it is installed at its own address, and every other
address reads as in the reset state, whose memory lists nothing. -/
theorem byteAt_load_of_fits {bs : List Byte} (s : State) (h : bs.length ≤ 4096 - 512) (a : Nat) :
    ((construct s).setMem (installBytes s.fontBase [] programBase bs)).byteAt a =
      if h : 0x200 ≤ a ∧ a < 0x200 + bs.length then bs[a - 0x200] else (construct s).byteAt a :=
  memGet_installBytes rfl (by unfold programBase memoryBytes; omega) a

/-- A new memory changes no part of the state but the bytes that read differently. -/
theorem setMem_unchanged {s : State} {m : Memory} {changed : List Part}
    (h : ∀ a, Part.byte a ∉ changed → (s.setMem m).byteAt a = s.byteAt a) :
    UnchangedBut changed s (s.setMem m) := by
  intro p hp
  cases p with
  | byte a => exact h a hp
  | _ => rfl

/-- Settles O56: at most 3584 bytes are installed verbatim over the reset state and nothing else of it changes;
more leave the reset state itself. -/
theorem loadInstallsTheProgram : Obligations.LoadInstallsTheProgram := by
  refine fun bs s => ⟨fun hfits => ⟨_, transact_load_of_fits s hfits, fun k hk => ?_, ?_⟩,
    transact_load_of_too_large s⟩
  · rw [byteAt_load_of_fits s hfits, dif_pos (by omega)]
    simp only [Nat.add_sub_cancel_left]
  · refine setMem_unchanged fun a ha => ?_
    have hout : ¬ (0x200 ≤ a ∧ a < 0x200 + bs.length) := fun ⟨hlo, hhi⟩ =>
      ha (List.mem_map.mpr ⟨a - 0x200, List.mem_range.mpr (by omega), by rw [Nat.add_sub_cancel' hlo]⟩)
    rw [byteAt_load_of_fits s hfits, dif_neg hout]

end Sys2Proof.Machine
end

section
/-! The encoding (spec/30_encoding.md R83 to R85): the decoder inverts the encoder on instructions and the encoder
inverts the decoder on words, which words decode to nothing, and how the rows of the opcode table share out the
words. -/

namespace Sys2Proof

open Laws.EncodingFitsRow (Statement)

/-! ### Decoding an encoded instruction -/

/-- The operands of each format: the decoder reads them back from the fields the encoder put them in. -/
theorem decode_encode (i : Instr) : decode (encode i) = some i := by
  cases i with
  | cls | ret => rfl
  | jp | call | ldI | jpV0 => simp [encode, decode]
  | seImm | sneImm | ldImm | addImm | rnd => simp [encode, decode]
  | seReg | sneReg | drw => simp [encode, decode]
  | ldReg | orReg | andReg | xorReg | addReg | sub | shr | subn | shl => simp [encode, decode, decodeArith]
  | skp | sknp => simp [encode, decode]
  | ldVxDt | ldVxK | ldDtVx | ldStVx | addIVx | ldFVx | ldBVx | ldMemVx | ldVxMem =>
    simp [encode, decode, decodeMisc]

theorem decodeBytes_of_decode {hi lo : Byte} {i : Instr} (h : decode (wordOfBytes hi lo) = some i)
    (rest : List Byte) : decodeBytes (hi :: lo :: rest) = .ok (i, rest) := by
  simp only [decodeBytes, h]

theorem decodeBytes_encodeBytes_append (i : Instr) (rest : List Byte) :
    decodeBytes (encodeBytes i ++ rest) = .ok (i, rest) :=
  decodeBytes_of_decode (by rw [wordOfBytes_high_low, decode_encode]) rest

/-- The per-instruction laws, put together. -/
theorem encoding_fits_row (i : Instr) : Statement i := by
  cases i with
  | cls => exact Laws.EncodingFitsRow.cls
  | ret => exact Laws.EncodingFitsRow.ret
  | jp nnn => exact Laws.EncodingFitsRow.jp nnn
  | call nnn => exact Laws.EncodingFitsRow.call nnn
  | seImm x nn => exact Laws.EncodingFitsRow.seImm x nn
  | sneImm x nn => exact Laws.EncodingFitsRow.sneImm x nn
  | seReg x y => exact Laws.EncodingFitsRow.seReg x y
  | ldImm x nn => exact Laws.EncodingFitsRow.ldImm x nn
  | addImm x nn => exact Laws.EncodingFitsRow.addImm x nn
  | ldReg x y => exact Laws.EncodingFitsRow.ldReg x y
  | orReg x y => exact Laws.EncodingFitsRow.orReg x y
  | andReg x y => exact Laws.EncodingFitsRow.andReg x y
  | xorReg x y => exact Laws.EncodingFitsRow.xorReg x y
  | addReg x y => exact Laws.EncodingFitsRow.addReg x y
  | sub x y => exact Laws.EncodingFitsRow.sub x y
  | shr x y => exact Laws.EncodingFitsRow.shr x y
  | subn x y => exact Laws.EncodingFitsRow.subn x y
  | shl x y => exact Laws.EncodingFitsRow.shl x y
  | sneReg x y => exact Laws.EncodingFitsRow.sneReg x y
  | ldI nnn => exact Laws.EncodingFitsRow.ldI nnn
  | jpV0 nnn => exact Laws.EncodingFitsRow.jpV0 nnn
  | rnd x nn => exact Laws.EncodingFitsRow.rnd x nn
  | drw x y n => exact Laws.EncodingFitsRow.drw x y n
  | skp x => exact Laws.EncodingFitsRow.skp x
  | sknp x => exact Laws.EncodingFitsRow.sknp x
  | ldVxDt x => exact Laws.EncodingFitsRow.ldVxDt x
  | ldVxK x => exact Laws.EncodingFitsRow.ldVxK x
  | ldDtVx x => exact Laws.EncodingFitsRow.ldDtVx x
  | ldStVx x => exact Laws.EncodingFitsRow.ldStVx x
  | addIVx x => exact Laws.EncodingFitsRow.addIVx x
  | ldFVx x => exact Laws.EncodingFitsRow.ldFVx x
  | ldBVx x => exact Laws.EncodingFitsRow.ldBVx x
  | ldMemVx x => exact Laws.EncodingFitsRow.ldMemVx x
  | ldVxMem x => exact Laws.EncodingFitsRow.ldVxMem x

/-- Settles O1: every operand fits its field, and the word of the encoded bytes decodes to the instruction. -/
theorem decodingEncodedBytesGivesTheInstruction : Obligations.DecodingEncodedBytesGivesTheInstruction :=
  fun i rest => ⟨(encoding_fits_row i).2, decodeBytes_encodeBytes_append i rest⟩

/-! ### Encoding a decoded word -/

section
variable {w : Word} {o f : Nat}

theorem fieldX_val (w : Word) : (fieldX w).val = w.toNat / 256 % 16 := by
  rw [fieldX, bits_11_8]
  exact Nat.mod_mod _ 16

theorem fieldY_val (w : Word) : (fieldY w).val = w.toNat / 16 % 16 := by
  rw [fieldY, bits_7_4]
  exact Nat.mod_mod _ 16

theorem fieldN_val (w : Word) : (fieldN w).val = w.toNat % 16 := by
  rw [fieldN, bits_3_0]
  exact Nat.mod_mod _ 16

theorem fieldNN_toNat (w : Word) : (fieldNN w).toNat = w.toNat % 256 := by
  rw [fieldNN, bits_7_0, BitVec.toNat_ofNat]
  exact Nat.mod_mod _ 256

theorem fieldNNN_toNat (w : Word) : (fieldNNN w).toNat = w.toNat % 4096 := by
  rw [fieldNNN, bits_11_0, BitVec.toNat_ofNat]
  exact Nat.mod_mod _ 4096

/-- A word is what its number says. -/
theorem ofNat_eq_of_toNat {n : Nat} (h : n = w.toNat) : BitVec.ofNat 16 n = w := by
  rw [h, BitVec.ofNat_toNat, BitVec.setWidth_eq]

theorem formatNNN_fields (ho : bits w 15 12 = o) : formatNNN o (fieldNNN w) = w := by
  rw [bits_15_12] at ho
  exact ofNat_eq_of_toNat (by rw [fieldNNN_toNat]; omega)

theorem formatXNN_fields (ho : bits w 15 12 = o) : formatXNN o (fieldX w) (fieldNN w) = w := by
  rw [bits_15_12] at ho
  exact ofNat_eq_of_toNat (by rw [fieldX_val, fieldNN_toNat]; omega)

theorem formatXYN_fields (ho : bits w 15 12 = o) (hf : bits w 3 0 = f) :
    formatXYN o (fieldX w) (fieldY w) f = w := by
  rw [bits_15_12] at ho
  rw [bits_3_0] at hf
  exact ofNat_eq_of_toNat (by rw [fieldX_val, fieldY_val]; omega)

theorem formatX_fields (ho : bits w 15 12 = o) (hf : bits w 7 0 = f) : formatX o (fieldX w) f = w := by
  rw [bits_15_12] at ho
  rw [bits_7_0] at hf
  exact ofNat_eq_of_toNat (by rw [fieldX_val]; omega)

theorem encode_of_decodeArith {i : Instr} (ho : bits w 15 12 = 0x8) (h : decodeArith w = some i) :
    encode i = w := by
  unfold decodeArith at h
  split at h <;> cases h <;> exact formatXYN_fields ho ‹_›

theorem encode_of_decodeMisc {i : Instr} (ho : bits w 15 12 = 0xF) (h : decodeMisc w = some i) :
    encode i = w := by
  unfold decodeMisc at h
  split at h <;> cases h <;> exact formatX_fields ho ‹_›

/-- A word of leading nibble 0 is its low twelve bits. -/
theorem ofNat_of_low_bits {n : Nat} (ho : bits w 15 12 = 0) (hn : bits w 11 0 = n) : BitVec.ofNat 16 n = w := by
  rw [bits_15_12] at ho
  rw [bits_11_0] at hn
  exact ofNat_eq_of_toNat (by omega)

/-- R83: each branch of the decoder fixes the leading nibble, and where the row has one the function nibble or
byte; the word is the one those and its own fields make up. -/
theorem encode_of_decode {i : Instr} (h : decode w = some i) : encode i = w := by
  unfold decode at h
  split at h
  case h_1 ho =>
    split at h <;> cases h
    all_goals exact ofNat_of_low_bits ho ‹_›
  case h_9 ho => exact encode_of_decodeArith ho h
  case h_16 ho => exact encode_of_decodeMisc ho h
  case h_17 => cases h
  case h_6 | h_10 =>
    split at h <;> cases h
    exact formatXYN_fields ‹_› ‹_›
  case h_15 =>
    split at h <;> cases h
    all_goals exact formatX_fields ‹_› ‹_›
  case h_2 | h_3 | h_11 | h_12 => cases h; exact formatNNN_fields ‹_›
  case h_4 | h_5 | h_7 | h_8 | h_13 => cases h; exact formatXNN_fields ‹_›
  case h_14 ho => cases h; exact formatXYN_fields ho (by rw [fieldN_val, bits_3_0])

end

/-- Settles O2: `encode_of_decode`. -/
theorem encodingDecodedWordGivesTheWord : Obligations.EncodingDecodedWordGivesTheWord :=
  fun _ _ h => encode_of_decode h

/-! ### The words of no row -/

theorem decodeArith_eq_none_iff (w : Word) :
    decodeArith w = none ↔ w.toNat % 0x10 ∈ [0x8, 0x9, 0xA, 0xB, 0xC, 0xD, 0xF] := by
  have hlt : w.toNat % 0x10 < 16 := Nat.mod_lt _ (by decide)
  unfold decodeArith
  rw [bits_3_0]
  interval_cases w.toNat % 0x10 <;> simp

theorem decodeMisc_eq_none_iff (w : Word) :
    decodeMisc w = none ↔ w.toNat % 0x100 ∉ [0x07, 0x0A, 0x15, 0x18, 0x1E, 0x29, 0x33, 0x55, 0x65] := by
  unfold decodeMisc
  rw [bits_7_0]
  split <;> simp_all

/-- Settles O4: by the branches of the decoder. A leading nibble with no fixed function field always decodes; the
others decode but for the function fields R85 lists. -/
theorem wordsOfNoRowAreThoseListed : Obligations.WordsOfNoRowAreThoseListed := by
  intro w
  have hw := w.isLt
  unfold decode
  rw [bits_15_12, bits_11_0, bits_3_0, bits_7_0]
  split
  case h_1 ho =>
    have hlow : w.toNat % 4096 = w.toNat := by omega
    rw [hlow]
    split <;> simp_all
  case h_9 ho => simp [ho, decodeArith_eq_none_iff]
  case h_16 ho => simp [ho, decodeMisc_eq_none_iff]
  case h_17 =>
    simp only [imp_false] at *
    omega
  case h_6 ho | h_10 ho => simp [ho]
  case h_15 ho => split <;> simp_all
  case h_2 ho | h_3 ho | h_11 ho | h_12 ho => simp [ho]
  case h_4 ho | h_5 ho | h_7 ho | h_8 ho | h_13 ho | h_14 ho => simp [ho]

/-! ### The rows of the opcode table -/

/-- No two rows of the table are the same on the bits both fix. -/
def OpcodeRow.Disjoint (r r' : OpcodeRow) : Prop := r.value &&& r'.mask ≠ r'.value &&& r.mask

theorem OpcodeRow.accepts_iff_and {r : OpcodeRow} {w : Word} : r.accepts w = true ↔ w &&& r.mask = r.value :=
  beq_iff_eq

/-- Two rows that accept one word agree on the bits both fix. -/
theorem OpcodeRow.Disjoint.not_accepts {r r' : OpcodeRow} {w : Word} (h : r.Disjoint r')
    (hr : r.accepts w = true) : ¬ r'.accepts w = true := by
  intro hr'
  rw [accepts_iff_and] at hr hr'
  apply h
  rw [← hr, ← hr', BitVec.and_assoc, BitVec.and_assoc, BitVec.and_comm r.mask]

theorem opcodeRows_pairwise : opcodeRows.Pairwise OpcodeRow.Disjoint := by
  unfold OpcodeRow.Disjoint
  decide

theorem opcodeRows_unique {w : Word} {r r' : OpcodeRow} (hr : r ∈ opcodeRows) (hr' : r' ∈ opcodeRows)
    (h : r.accepts w = true) (h' : r'.accepts w = true) : r = r' := by
  by_contra hne
  have : Std.Symm OpcodeRow.Disjoint := ⟨fun _ _ h => h.symm⟩
  exact (opcodeRows_pairwise.forall hr hr' hne).not_accepts h h'

/-- The leading nibbles of the rows that fix nothing else. 00E0 and 00EE fix the whole word. -/
theorem opcodeRowsLead_cases {r : OpcodeRow} (hr : r ∈ opcodeRowsLead) :
    r.mask = 0xFFFF#16 ∧ r.value.toNat ∈ [0x00E0, 0x00EE] ∨
      r.mask = 0xF000#16 ∧ r.value.toNat / 4096 ∈ [0x1, 0x2, 0x3, 0x4, 0x6, 0x7, 0xA, 0xB, 0xC, 0xD] := by
  revert r
  decide

/-- The leading and function nibbles of the rows of format XY. -/
theorem opcodeRowsXY_cases {r : OpcodeRow} (hr : r ∈ opcodeRowsXY) :
    r.mask = 0xF00F#16 ∧ (r.value.toNat ∈ [0x5000, 0x9000] ∨
      r.value.toNat ∈ [0x8000, 0x8001, 0x8002, 0x8003, 0x8004, 0x8005, 0x8006, 0x8007, 0x800E]) := by
  revert r
  decide

/-- The leading nibbles and function bytes of the rows of format X. -/
theorem opcodeRowsX_cases {r : OpcodeRow} (hr : r ∈ opcodeRowsX) :
    r.mask = 0xF0FF#16 ∧ (r.value.toNat ∈ [0xE09E, 0xE0A1] ∨
      r.value.toNat ∈ [0xF007, 0xF00A, 0xF015, 0xF018, 0xF01E, 0xF029, 0xF033, 0xF055, 0xF065]) := by
  revert r
  decide

/-- R84: a word some row accepts is none of the words of no row. -/
theorem decode_ne_none_of_accepts {w : Word} {r : OpcodeRow} (hr : r ∈ opcodeRows) (h : r.accepts w = true) :
    decode w ≠ none := by
  have hw := w.isLt
  rw [OpcodeRow.accepts_iff] at h
  rw [Ne, wordsOfNoRowAreThoseListed w]
  simp only [List.mem_cons, List.not_mem_nil, or_false]
  rcases List.mem_append.mp hr with hr | hr
  · rcases List.mem_append.mp hr with hr | hr
    · obtain ⟨hmask, hv⟩ | ⟨hmask, hv⟩ := opcodeRowsLead_cases hr
      · rw [hmask, mask_FFFF] at h
        simp only [List.mem_cons, List.not_mem_nil, or_false] at hv
        omega
      · rw [hmask, mask_F000] at h
        simp only [List.mem_cons, List.not_mem_nil, or_false] at hv
        omega
    · obtain ⟨hmask, hv⟩ := opcodeRowsXY_cases hr
      rw [hmask, mask_F00F] at h
      simp only [List.mem_cons, List.not_mem_nil, or_false] at hv
      omega
  · obtain ⟨hmask, hv⟩ := opcodeRowsX_cases hr
    rw [hmask, mask_F0FF] at h
    simp only [List.mem_cons, List.not_mem_nil, or_false] at hv
    omega

/-- A word that decodes is accepted by the row that bears its instruction's mnemonic, as its encoding. -/
theorem exists_row_of_decode {w : Word} {i : Instr} (h : decode w = some i) :
    ∃ r ∈ opcodeRows, r.mnemonic = i.mnemonic ∧ r.accepts w = true := by
  rw [← encode_of_decode h]
  exact (encoding_fits_row i).1

/-- Settles O5: the rows are disjoint in pairs, an instruction's word is accepted by its row, and a word of a row is
none of those of O4. -/
theorem decodingFindsTheOneAcceptingRow : Obligations.DecodingFindsTheOneAcceptingRow :=
  ⟨fun _ _ hr _ hr' h h' => opcodeRows_unique hr hr' h h', fun _ _ h => exists_row_of_decode h,
    fun _ hnone _ hr => Bool.eq_false_iff.mpr fun hacc => decode_ne_none_of_accepts hr hacc hnone⟩

/-- Settles O3: ten words evaluated. -/
theorem writtenOutWordsDecode : Obligations.WrittenOutWordsDecode := by
  unfold Obligations.WrittenOutWordsDecode
  decide

end Sys2Proof
end

section
/-! The invariant of the block (spec/10_state.md R26, R32; spec/20_memory.md R50, R58): the reset state meets it, and
STEP and every other transaction keep it. Two inversion lemmas say what a STEP and a transaction can do. -/

namespace Sys2Proof.Machine

/-! ### What a STEP can do -/

/-- `step_cases` with the instruction's effect: nothing; or, from Running, an error, the `PC + 2` of a 0NNN word, or
the effect of the instruction executed. -/
theorem step_effect {s t : State} (h : step s = .next t) :
    t = s ∨ (s.interpreter = .running ∧
      ((∃ e, t = s.raise e) ∨ t = s.advance ∨ ∃ i, Executes s i ∧ Effect i s t)) := by
  obtain ⟨rfl, -⟩ | ⟨hhalt, hwait, hcases⟩ := step_cases h
  · exact .inl rfl
  · have hrun : s.interpreter = .running := interpreter_eq_running.mpr ⟨hhalt, hwait⟩
    refine .inr ⟨hrun, ?_⟩
    obtain herror | rfl | ⟨i, w, hf, hd, he⟩ := hcases
    · exact .inl herror
    · exact .inr (.inl rfl)
    · obtain heffect | herror := exec_effect he
      · exact .inr (.inr ⟨i, ⟨hrun, w, hf, hd⟩, heffect⟩)
      · exact .inl herror

/-! ### What a transaction can do -/

/-- R5: the state after each transaction; SNAPSHOT and SOUND leave the state as it was. -/
theorem transact_cases {tr : Transaction} {s s' : State} {r : Response} (h : transact tr s = .next (s', r)) :
    (tr = .construct ∧ s' = construct s) ∨ (∃ bs, tr = .load bs ∧ s' = (load bs s).1) ∨
      (tr = .step ∧ step s = .next s' ∧ r = stepResponse s') ∨ (tr = .tick ∧ s' = tick s) ∨
      (∃ k p, tr = .key k p ∧ s' = keyEvent k p s) ∨ s' = s := by
  cases tr with
  | construct => cases h; exact .inl ⟨rfl, rfl⟩
  | load bs => cases h; exact .inr (.inl ⟨bs, rfl, rfl⟩)
  | step => exact .inr (.inr (.inl ⟨rfl, transact_step h⟩))
  | tick => cases h; exact .inr (.inr (.inr (.inl ⟨rfl, rfl⟩)))
  | key k p => cases h; exact .inr (.inr (.inr (.inr (.inl ⟨k, p, rfl, rfl⟩))))
  | snapshot | sound => cases h; exact .inr (.inr (.inr (.inr (.inr rfl))))

/-- R262: LOAD leaves the reset state, or installs a program that fits over it. -/
theorem load_cases (bs : List Byte) (s : State) :
    (load bs s).1 = construct s ∨ (bs.length ≤ 4096 - 512 ∧
      (load bs s).1 = (construct s).setMem (installBytes s.fontBase [] programBase bs)) := by
  unfold load
  split
  · exact .inr ⟨programFits_iff.mp ‹_›, rfl⟩
  · exact .inl rfl

/-! ### The invariant is a matter of five fields -/

/-- The invariant looks at the parameters, memory, the stack and the two markers only. -/
theorem State.Inv.congr {s t : State} (h : s.Inv) (hcfg : t.cfg = s.cfg) (hmem : t.mem = s.mem)
    (hstack : t.stack = s.stack) (hmark : t.halt = none ∨ t.wait = none) : t.Inv where
  fontFits := hcfg ▸ h.fontFits
  memCanonical := by rw [State.fontBase, hcfg, hmem]; exact h.memCanonical
  depth := hstack ▸ h.depth
  haltOrWait := hmark
  reservedKept := by rw [hcfg, hmem]; exact h.reservedKept

/-- An instruction that raises no error keeps the invariant: a store keeps the canonical form and the reserved
region, and a call is refused at depth 16. -/
theorem Effect.inv {i : Instr} {s t : State} (h : Effect i s t) (hinv : s.Inv) (hhalt : s.halt = none) : t.Inv where
  fontFits := h.cfg ▸ hinv.fontFits
  memCanonical := by
    rw [State.fontBase, h.cfg]
    obtain hmem | ⟨-, rs, bs, hmem, hrs⟩ := h.mem
    · exact hmem ▸ hinv.memCanonical
    · rw [hmem]
      exact memPutAll_wf hinv.memCanonical fun r hr => (hrs r hr).1
  depth := by
    have hdepth := hinv.depth
    obtain hst | ⟨-, -, hne, hst⟩ | ⟨-, hst⟩ := h.stack
    · exact hst ▸ hdepth
    · rw [hst, List.length_append, List.length_singleton]
      omega
    · rw [hst, List.length_dropLast]
      omega
  haltOrWait := .inl (h.halt.trans hhalt)
  reservedKept := by
    intro hfault c hc
    rw [h.cfg] at hfault
    obtain hmem | ⟨-, rs, bs, hmem, hrs⟩ := h.mem
    · exact hinv.reservedKept hfault c (hmem ▸ hc)
    · obtain hin | hold := mem_memPutAll (hmem ▸ hc)
      · exact (hrs _ hin).2 hfault
      · exact hinv.reservedKept hfault c hold

/-! ### STEP -/

theorem step_keeps_inv {s t : State} (hinv : s.Inv) (h : step s = .next t) : t.Inv := by
  obtain rfl | ⟨hrun, hcases⟩ := step_effect h
  · exact hinv
  · obtain ⟨hhalt, hwait⟩ := interpreter_eq_running.mp hrun
    obtain ⟨e, rfl⟩ | rfl | ⟨i, -, heffect⟩ := hcases
    · exact hinv.congr rfl rfl rfl (.inr hwait)
    · exact hinv.congr rfl rfl rfl (.inr hwait)
    · exact heffect.inv hinv hhalt

/-- Settles O13: an error and the advance of `PC` touch nothing the invariant speaks of but `Halt`, and an instruction
keeps it by its effect. -/
theorem stepKeepsTheInvariant : Obligations.StepKeepsTheInvariant :=
  fun _ _ hinv h => step_keeps_inv hinv h

/-! ### The other transactions -/

/-- R35: the reset memory lists nothing and the reset stack is empty. -/
theorem resetFor_inv {c : Config} (hc : c.wf = true) (draws : Nat) : (State.resetFor c draws).Inv where
  fontFits := hc
  memCanonical := rfl
  depth := Nat.zero_le 16
  haltOrWait := .inl rfl
  reservedKept := fun _ _ hmem => nomatch hmem

/-- Settles O15: the default font base fits, so both parts are `resetFor_inv`. -/
theorem resetMeetsTheInvariant : Obligations.ResetMeetsTheInvariant :=
  ⟨resetFor_inv (by decide) 0, fun _ draws hc => resetFor_inv hc draws⟩

theorem construct_inv {s : State} (h : s.Inv) : (construct s).Inv := resetFor_inv h.fontFits s.draws

/-- R262: a program is installed above the reserved region. -/
theorem load_inv {s : State} (h : s.Inv) (bs : List Byte) : (load bs s).1.Inv := by
  obtain hload | ⟨hlen, hload⟩ := load_cases bs s
  · exact hload ▸ construct_inv h
  · rw [hload]
    refine { construct_inv h with memCanonical := ?_, reservedKept := fun _ c hc => ?_ }
    · exact installBytes_wf rfl (by unfold programBase memoryBytes; omega)
    · exact (mem_installBytes hc).resolve_right List.not_mem_nil

/-- R243: a key event leaves the marker, or clears it. -/
theorem keyEvent_wait (k : KeyNo) (pressed : Bool) (s : State) :
    (keyEvent k pressed s).wait = s.wait ∨ (keyEvent k pressed s).wait = none := by
  cases hwait : s.wait with
  | none => exact .inl (by rw [keyEvent_of_release_or_no_wait k (.inr hwait), State.setKey_wait, hwait])
  | some r =>
    cases pressed with
    | false => exact .inl (by rw [keyEvent_of_release_or_no_wait k (.inl rfl), State.setKey_wait, hwait])
    | true => exact .inr (by rw [keyEvent_of_press k hwait, resolveWait_wait])

theorem keyEvent_inv {s : State} (h : s.Inv) (k : KeyNo) (pressed : Bool) : (keyEvent k pressed s).Inv := by
  obtain ⟨hmem, -, hstack, -, -, -, hhalt, hcfg, -⟩ := keyEvent_frame k pressed s
  refine h.congr hcfg hmem hstack ?_
  obtain hwait | hwait := keyEvent_wait k pressed s
  · rw [hhalt, hwait]
    exact h.haltOrWait
  · exact .inr hwait

theorem transact_keeps_inv {tr : Transaction} {s s' : State} {r : Response} (hinv : s.Inv)
    (h : transact tr s = .next (s', r)) : s'.Inv := by
  obtain ⟨-, rfl⟩ | ⟨bs, -, rfl⟩ | ⟨-, hstep, -⟩ | ⟨-, rfl⟩ | ⟨k, p, -, rfl⟩ | rfl := transact_cases h
  · exact construct_inv hinv
  · exact load_inv hinv bs
  · exact step_keeps_inv hinv hstep
  · exact hinv.congr rfl rfl rfl hinv.haltOrWait
  · exact keyEvent_inv hinv k p
  · exact hinv

/-- Settles O14: one lemma for each transaction. -/
theorem transactionsKeepTheInvariant : Obligations.TransactionsKeepTheInvariant :=
  fun _ _ _ _ hinv h => transact_keeps_inv hinv h

/-! ### Reachable states -/

theorem step_cfg {s t : State} (h : step s = .next t) : t.cfg = s.cfg := by
  obtain rfl | ⟨-, ⟨e, rfl⟩ | rfl | ⟨i, -, heffect⟩⟩ := step_effect h
  · rfl
  · rfl
  · rfl
  · exact heffect.cfg

theorem load_cfg (bs : List Byte) (s : State) : (load bs s).1.cfg = s.cfg := by
  obtain hload | ⟨-, hload⟩ := load_cases bs s <;> rw [hload] <;> rfl

/-- No transaction writes the parameters (log 1, 15). -/
theorem transact_cfg {tr : Transaction} {s s' : State} {r : Response} (h : transact tr s = .next (s', r)) :
    s'.cfg = s.cfg := by
  obtain ⟨-, rfl⟩ | ⟨bs, -, rfl⟩ | ⟨-, hstep, -⟩ | ⟨-, rfl⟩ | ⟨k, p, -, rfl⟩ | rfl := transact_cases h
  · rfl
  · exact load_cfg bs s
  · exact step_cfg hstep
  · rfl
  · obtain ⟨-, -, -, -, -, -, -, hcfg, -⟩ := keyEvent_frame k p s
    exact hcfg
  · rfl

/-- Settles O16, by induction on the transactions since CONSTRUCT. -/
theorem reachableStatesMeetTheInvariant : Obligations.ReachableStatesMeetTheInvariant := by
  intro c s hc hs
  induction hs with
  | constructed draws => exact ⟨resetFor_inv hc draws, rfl⟩
  | transacted tr _ h ih =>
    obtain ⟨hinv, hcfg⟩ := ih
    exact ⟨transact_keeps_inv hinv h, (transact_cfg h).trans hcfg⟩

/-! ### The reserved region -/

/-- R54: an instruction that raises no error writes no byte of the reserved region under Fault. -/
theorem Effect.byteAt_reserved {i : Instr} {s t : State} {a : Nat} (h : Effect i s t)
    (hfault : s.cfg.reservedWrite = .fault) (ha : a < 0x200) : t.byteAt a = s.byteAt a := by
  unfold State.byteAt State.fontBase
  rw [h.cfg]
  obtain hmem | ⟨-, rs, bs, hmem, hrs⟩ := h.mem
  · rw [hmem]
  · rw [hmem]
    exact memGet_memPutAll_of_notMem fun hin => ha.not_ge ((hrs a hin).2 hfault)

theorem step_byteAt_reserved {s t : State} {a : Nat} (hfault : s.cfg.reservedWrite = .fault)
    (h : step s = .next t) (ha : a < 0x200) : t.byteAt a = s.byteAt a := by
  obtain rfl | ⟨-, ⟨e, rfl⟩ | rfl | ⟨i, -, heffect⟩⟩ := step_effect h
  · rfl
  · rfl
  · rfl
  · exact heffect.byteAt_reserved hfault ha

theorem listedByte_of_forall_ne {m : Memory} {a : Nat} (h : ∀ c ∈ m, c.1 ≠ a) : listedByte m a = none := by
  induction m with
  | nil => rfl
  | cons c m ih =>
    obtain ⟨hc, hm⟩ := List.forall_mem_cons.mp h
    simp only [listedByte, if_neg hc, ih hm]

theorem unlistedByte_font (base k : Nat) : unlistedByte base (base + k) = fontTable.getD k 0 := by
  rw [unlistedByte, if_pos (Nat.le_add_right base k), Nat.add_sub_cancel_left]

/-- R58: under Fault the font lies where nothing is listed, so it reads as its reset contents. -/
theorem State.Inv.byteAt_font {s : State} (h : s.Inv) (hfault : s.cfg.reservedWrite = .fault) {k : Nat}
    (hk : k < 80) : s.byteAt (s.fontBase + k) = fontTable.getD k 0 := by
  have hbase : s.fontBase + 80 ≤ 0x200 := of_decide_eq_true h.fontFits
  have hout : ∀ c ∈ s.mem, c.1 ≠ s.fontBase + k := fun c hc heq => by
    have hlow : 0x200 ≤ c.1 := h.reservedKept hfault c hc
    omega
  rw [State.byteAt, memGet, listedByte_of_forall_ne hout]
  exact unlistedByte_font s.fontBase k

/-- Settles O17: the frame below 0x200, and the font from it and the invariant before the STEP. -/
theorem stepNeverChangesTheReservedRegion : Obligations.StepNeverChangesTheReservedRegion := by
  refine fun s t hfault h => ⟨fun a ha => step_byteAt_reserved hfault h ha, fun hinv k hk => ?_⟩
  have hbase : s.fontBase + 80 ≤ 0x200 := of_decide_eq_true hinv.fontFits
  rw [step_byteAt_reserved hfault h (by omega), hinv.byteAt_font hfault hk]

end Sys2Proof.Machine
end

section
/-! STEP (spec/40_pipeline.md R100 to R105; spec/60_exceptions.md R231): what the fetch answers, the instruction a
Running block executes, words of no row, and a halted block. -/

namespace Sys2Proof.Machine

/-! ### The fetch -/

/-- R52: an address above 0xFFF under `P_ADDR = Fault` is the error, with the address as it was. -/
theorem resolve_of_fault {c : Config} {a : Nat} (ha : 0xFFF < a) (hc : c.addr = .fault) :
    resolve c a = .error (.addressOutOfRange a) := by
  simp only [resolve, if_neg ha.not_ge, hc]

section
variable {s : State} (hpc : s.pc.toNat % 2 = 1 → s.cfg.oddPc = .fetch)
include hpc

theorem fetch_of_aligned : fetch s =
    (resolve s.cfg s.pc.toNat).bind fun a => (resolve s.cfg (s.pc.toNat + 1)).bind fun b =>
      .ok (wordOfBytes (s.byteAt a) (s.byteAt b)) := by
  have hno : ¬ (s.pc.toNat % 2 = 1 ∧ s.cfg.oddPc = .fault) := fun ⟨hodd, hfault⟩ => by
    rw [hpc hodd] at hfault
    cases hfault
  unfold fetch
  rw [if_neg hno]
  cases resolve s.cfg s.pc.toNat with
  | error e => rfl
  | ok a => cases resolve s.cfg (s.pc.toNat + 1) <;> rfl

theorem fetch_of_resolve {a b : Nat} (ha : resolve s.cfg s.pc.toNat = .ok a)
    (hb : resolve s.cfg (s.pc.toNat + 1) = .ok b) :
    fetch s = .ok (wordOfBytes (s.byteAt a) (s.byteAt b)) := by
  rw [fetch_of_aligned hpc, ha, hb]
  rfl

theorem fetch_of_first_error {e : CpuError} (ha : resolve s.cfg s.pc.toNat = .error e) :
    fetch s = .error e := by
  rw [fetch_of_aligned hpc, ha]
  rfl

theorem fetch_of_second_error {a : Nat} {e : CpuError} (ha : resolve s.cfg s.pc.toNat = .ok a)
    (hb : resolve s.cfg (s.pc.toNat + 1) = .error e) : fetch s = .error e := by
  rw [fetch_of_aligned hpc, ha, hb]
  rfl

end

/-- Settles O9: the misaligned fetch, then the two addresses in turn, and else the word of the two bytes. -/
theorem fetchReadsTheWordOrReportsTheFirstError : Obligations.FetchReadsTheWordOrReportsTheFirstError := by
  refine fun s => ⟨fetch_of_misaligned, fun hpc => ⟨fun hc hhigh => ?_, fun hc hlast => ?_, fun a b ha hb => ?_⟩⟩
  · exact fetch_of_first_error hpc (resolve_of_fault hhigh hc)
  · have hsecond : resolve s.cfg (s.pc.toNat + 1) = .error (.addressOutOfRange 0x1000) := by
      rw [hlast]
      exact resolve_of_fault (by decide) hc
    exact fetch_of_second_error hpc (resolve_of_le hlast.le) hsecond
  · exact ⟨_, fetch_of_resolve hpc ha hb, wordOfBytes_toNat _ _⟩

/-! ### Executing what was fetched -/

theorem decodeUnder_of_decode {p : SysPolicy} {w : Word} {i : Instr} (h : decode w = some i) :
    decodeUnder p w = .instr i := by
  simp only [decodeUnder, h]

theorem decodeUnder_of_noOp {w : Word} (h : decode w = none) (hw : w.toNat / 0x1000 = 0) :
    decodeUnder .noOp w = .sysNoOp (fieldNNN w) := by
  rw [← bits_15_12] at hw
  simp only [decodeUnder, h, if_pos hw]

theorem decodeUnder_of_unknown {p : SysPolicy} {w : Word} (h : decode w = none)
    (hp : p = .unknown ∨ w.toNat / 0x1000 ≠ 0) : decodeUnder p w = .unknown w := by
  rw [← bits_15_12] at hp
  cases p with
  | unknown => simp only [decodeUnder, h]
  | noOp => simp only [decodeUnder, h, if_neg (hp.resolve_left nofun)]

theorem decode_of_decodeBytes {hi lo : Byte} {i : Instr} {rest : List Byte}
    (h : decodeBytes [hi, lo] = .ok (i, rest)) : decode (wordOfBytes hi lo) = some i := by
  cases hd : decode (wordOfBytes hi lo) with
  | none => simp [decodeBytes, hd] at h
  | some j =>
    rw [decodeBytes_of_decode hd] at h
    cases h
    rfl

/-- Settles O6: the fetch succeeds, its word decodes, and STEP hands the state to `exec`. -/
theorem stepExecutesTheDecodedInstruction : Obligations.StepExecutesTheDecodedInstruction := by
  intro s i a b hhalt hwait hpc ha hb hd
  rw [step_of_fetch_ok hhalt hwait (fetch_of_resolve hpc ha hb), decodeUnder_of_decode (decode_of_decodeBytes hd),
    execDecoded]

/-- Settles O10: by what the word decodes to under `P_SYS`, one of the two ways not to be an instruction. -/
theorem wordOfNoRowHaltsOrOnlyAdvances : Obligations.WordOfNoRowHaltsOrOnlyAdvances := by
  intro s w hhalt hwait hf hd
  rw [step_of_fetch_ok hhalt hwait hf]
  by_cases hnoOp : s.cfg.sys = .noOp ∧ w.toNat / 0x1000 = 0
  · obtain ⟨hsys, hw⟩ := hnoOp
    rw [hsys, decodeUnder_of_noOp hd hw]
    exact ⟨s.advance, rfl, fun _ _ => ⟨advance_pc_toNat s, advance_unchanged s⟩, fun h => by simp [hw] at h⟩
  · have hunknown : s.cfg.sys = .unknown ∨ w.toNat / 0x1000 ≠ 0 := by
      cases hsys : s.cfg.sys with
      | unknown => exact .inl rfl
      | noOp => exact .inr fun hw => hnoOp ⟨hsys, hw⟩
    rw [decodeUnder_of_unknown hd hunknown]
    exact ⟨s.raise (.unknownOpcode w), rfl, fun hsys hw => absurd ⟨hsys, hw⟩ hnoOp,
      fun _ => ⟨rfl, raise_unchanged s _⟩⟩

/-! ### Errors -/

theorem stepResponse_of_halt {s : State} {e : CpuError} (h : s.halt = some e) : stepResponse s = .cpuError e := by
  simp only [stepResponse, h]

theorem transact_step_of_halt {s : State} {e : CpuError} (h : s.halt = some e) :
    transact .step s = .next (s, .cpuError e) := by
  rw [transact_step_of_next (step_of_halt h), stepResponse_of_halt h]

/-- Settles O7: the state is kept by `step_of_halt`, and the answer is read from its latch. -/
theorem haltedStepReturnsTheErrorAgain : Obligations.HaltedStepReturnsTheErrorAgain :=
  fun _ _ h => transact_step_of_halt h

/-- R231: of the ways a STEP can end, only an error sets `Halt`. -/
theorem step_eq_raise {s t : State} {e : CpuError} (hhalt : s.halt = none) (h : step s = .next t)
    (ht : t.halt = some e) : t = s.raise e := by
  have hclear : t.halt ≠ none := ht ▸ Option.some_ne_none e
  obtain rfl | ⟨-, ⟨e', rfl⟩ | rfl | ⟨i, -, heffect⟩⟩ := step_effect h
  · exact absurd hhalt hclear
  · rw [← Option.some.inj ht]
  · exact absurd hhalt hclear
  · exact absurd (heffect.halt.trans hhalt) hclear

/-- Settles O11: the state after is the state before with `Halt` set, and a halted STEP answers its error again. -/
theorem failingStepOnlyLatchesItsError : Obligations.FailingStepOnlyLatchesItsError := by
  intro s t e hhalt h ht
  refine ⟨?_, ?_, transact_step_of_halt ht⟩
  · rw [step_eq_raise hhalt h ht]
    exact raise_unchanged s e
  · rw [transact_step_of_next h, stepResponse_of_halt ht]

end Sys2Proof.Machine
end

section
/-! Who may write what (spec/10_state.md R26, R28 to R32; spec/40_pipeline.md R107): each claim is `transact_cases`
and, for a STEP, the effect of the instruction executed. -/

namespace Sys2Proof.Machine

/-- A STEP changes a field that an error and the advance of `PC` keep only by the instruction it executes. -/
theorem step_changes {α : Type} (field : State → α) {s t : State} (hraise : ∀ e, field (s.raise e) = field s)
    (hadvance : field s.advance = field s) (h : step s = .next t) (hne : field t ≠ field s) :
    ∃ i, Executes s i ∧ Effect i s t := by
  obtain rfl | ⟨-, ⟨e, rfl⟩ | rfl | hexec⟩ := step_effect h
  · exact absurd rfl hne
  · exact absurd (hraise e) hne
  · exact absurd hadvance hne
  · exact hexec

/-- The same of a transaction: beside a reset and the instruction a STEP executes, TICK and KEY may write the field. -/
theorem transact_changes {α : Type} (field : State → α) {tr : Transaction} {s s' : State} {r : Response}
    (hraise : ∀ e, field (s.raise e) = field s) (hadvance : field s.advance = field s)
    (h : transact tr s = .next (s', r)) (hne : field s' ≠ field s) :
    tr = .construct ∨ (∃ bs, tr = .load bs) ∨ (tr = .step ∧ ∃ i, Executes s i ∧ Effect i s s') ∨
      (tr = .tick ∧ field (tick s) ≠ field s) ∨
      (∃ k p, tr = .key k p ∧ field (keyEvent k p s) ≠ field s) := by
  obtain ⟨htr, -⟩ | ⟨bs, htr, -⟩ | ⟨htr, hstep, -⟩ | ⟨htr, rfl⟩ | ⟨k, p, htr, rfl⟩ | rfl := transact_cases h
  · exact .inl htr
  · exact .inr (.inl ⟨bs, htr⟩)
  · exact .inr (.inr (.inl ⟨htr, step_changes field hraise hadvance hstep hne⟩))
  · exact .inr (.inr (.inr (.inl ⟨htr, hne⟩)))
  · exact .inr (.inr (.inr (.inr ⟨k, p, htr, hne⟩)))
  · exact absurd rfl hne

/-! ### The display, the stack and the timers -/

/-- Settles O18: by the effect of the instruction on the display; TICK and KEY keep it. -/
theorem onlyClsAndDrwWriteTheDisplay : Obligations.OnlyClsAndDrwWriteTheDisplay := by
  intro tr s s' r h hne
  obtain htr | htr | ⟨htr, i, hexec, heffect⟩ | ⟨-, htick⟩ | ⟨k, p, -, hkey⟩ :=
    transact_changes State.fb (fun _ => rfl) rfl h hne
  · exact .inl htr
  · exact .inr (.inl htr)
  · obtain rfl | ⟨x, y, n, rfl⟩ := heffect.fb.resolve_left hne
    · exact .inr (.inr ⟨htr, .inl hexec⟩)
    · exact .inr (.inr ⟨htr, .inr ⟨x, y, n, hexec⟩⟩)
  · exact absurd rfl htick
  · obtain ⟨-, -, -, hfb, -⟩ := keyEvent_frame k p s
    exact absurd hfb hkey

/-- Settles O19: by the effect of the instruction on the stack; TICK and KEY keep it. -/
theorem onlyCallAndRetChangeTheStack : Obligations.OnlyCallAndRetChangeTheStack := by
  intro tr s s' r h hne
  obtain htr | htr | ⟨htr, i, hexec, heffect⟩ | ⟨-, htick⟩ | ⟨k, p, -, hkey⟩ :=
    transact_changes State.stack (fun _ => rfl) rfl h hne
  · exact .inl htr
  · exact .inr (.inl htr)
  · obtain ⟨nnn, rfl, -⟩ | ⟨rfl, -⟩ := heffect.stack.resolve_left hne
    · exact .inr (.inr ⟨htr, .inr ⟨nnn, hexec⟩⟩)
    · exact .inr (.inr ⟨htr, .inl hexec⟩)
  · exact absurd rfl htick
  · obtain ⟨-, -, hstack, -⟩ := keyEvent_frame k p s
    exact absurd hstack hkey

/-- Settles O20: by the effect of the instruction on each timer; KEY keeps both. -/
theorem onlyTheirInstructionAndTickWriteTheTimers : Obligations.OnlyTheirInstructionAndTickWriteTheTimers := by
  refine fun tr s s' r h => ⟨fun hne => ?_, fun hne => ?_⟩
  · obtain htr | htr | ⟨htr, i, hexec, heffect⟩ | ⟨htr, -⟩ | ⟨k, p, -, hkey⟩ :=
      transact_changes State.dt (fun _ => rfl) rfl h hne
    · exact .inl htr
    · exact .inr (.inl htr)
    · obtain ⟨x, rfl, -⟩ := heffect.dt.resolve_left hne
      exact .inr (.inr (.inr ⟨htr, x, hexec⟩))
    · exact .inr (.inr (.inl htr))
    · obtain ⟨-, -, -, -, hdt, -⟩ := keyEvent_frame k p s
      exact absurd hdt hkey
  · obtain htr | htr | ⟨htr, i, hexec, heffect⟩ | ⟨htr, -⟩ | ⟨k, p, -, hkey⟩ :=
      transact_changes State.st (fun _ => rfl) rfl h hne
    · exact .inl htr
    · exact .inr (.inl htr)
    · obtain ⟨x, rfl, -⟩ := heffect.st.resolve_left hne
      exact .inr (.inr (.inr ⟨htr, x, hexec⟩))
    · exact .inr (.inr (.inl htr))
    · obtain ⟨-, -, -, -, -, hst, -⟩ := keyEvent_frame k p s
      exact absurd hst hkey

/-! ### The key latch -/

/-- Settles O21: no instruction writes the latch, and neither does TICK. -/
theorem onlyKeyEventsWriteTheLatch : Obligations.OnlyKeyEventsWriteTheLatch := by
  intro tr s s' r h hne
  obtain htr | htr | ⟨-, i, -, heffect⟩ | ⟨-, htick⟩ | ⟨k, p, htr, -⟩ :=
    transact_changes State.key (fun _ => rfl) rfl h hne
  · exact .inl htr
  · exact .inr (.inl htr)
  · exact absurd heffect.key hne
  · exact absurd rfl htick
  · exact .inr (.inr ⟨k, p, htr⟩)

/-! ### The interpreter's state -/

theorem interpreter_congr {s t : State} (hhalt : t.halt = s.halt) (hwait : t.wait = s.wait) :
    t.interpreter = s.interpreter := by
  unfold State.interpreter
  rw [hhalt, hwait]

theorem interpreter_of_halt {s : State} {e : CpuError} (h : s.halt = some e) : s.interpreter = .halted e := by
  simp only [State.interpreter, h]

theorem load_interpreter (bs : List Byte) (s : State) : (load bs s).1.interpreter = .running := by
  obtain hload | ⟨-, hload⟩ := load_cases bs s <;> rw [hload] <;> rfl

/-- R107, the rows of a STEP: from Running, FX0A begins a wait, or an error halts. -/
theorem step_interpreter {s t : State} (h : step s = .next t) (hne : t.interpreter ≠ s.interpreter) :
    s.interpreter = .running ∧ ((∃ x, Executes s (.ldVxK x) ∧ t.interpreter = .waitingForKey x) ∨
      ∃ e, t.interpreter = .halted e ∧ stepResponse t = .cpuError e) := by
  obtain rfl | ⟨hrun, ⟨e, rfl⟩ | rfl | ⟨i, hexec, heffect⟩⟩ := step_effect h
  · exact absurd rfl hne
  · exact ⟨hrun, .inr ⟨e, interpreter_of_halt rfl, stepResponse_of_halt rfl⟩⟩
  · exact absurd (interpreter_congr rfl rfl) hne
  · obtain hsame | ⟨x, rfl, hwait⟩ := heffect.wait
    · exact absurd (interpreter_congr heffect.halt hsame) hne
    · obtain ⟨hhalt, -⟩ := interpreter_eq_running.mp hrun
      exact ⟨hrun, .inl ⟨x, hexec, interpreter_eq_waitingForKey.mpr ⟨heffect.halt.trans hhalt, hwait⟩⟩⟩

/-- R107, the row of KEY: a press ends a wait, and the register takes the key. -/
theorem keyEvent_interpreter {k : KeyNo} {pressed : Bool} {s : State}
    (hne : (keyEvent k pressed s).interpreter ≠ s.interpreter) :
    ∃ x, pressed = true ∧ s.interpreter = .waitingForKey x ∧ (keyEvent k pressed s).interpreter = .running ∧
      ((keyEvent k pressed s).reg x).toNat = k.val := by
  obtain ⟨-, -, -, -, -, -, hhalt, -⟩ := keyEvent_frame k pressed s
  cases hs : s.halt with
  | some e => exact absurd ((interpreter_of_halt (hhalt.trans hs)).trans (interpreter_of_halt hs).symm) hne
  | none =>
    have hlatchOnly : ¬ (pressed = false ∨ s.wait = none) := fun h => by
      rw [keyEvent_of_release_or_no_wait k h] at hne
      exact hne (interpreter_congr rfl rfl)
    obtain ⟨hpressed, hwaiting⟩ := not_or.mp hlatchOnly
    obtain rfl : pressed = true := by simpa using hpressed
    obtain ⟨x, hx⟩ := Option.ne_none_iff_exists'.mp hwaiting
    refine ⟨x, rfl, interpreter_eq_waitingForKey.mpr ⟨hs, hx⟩, ?_, ?_⟩
    · refine interpreter_eq_running.mpr ⟨hhalt.trans hs, ?_⟩
      rw [keyEvent_of_press k hx, resolveWait_wait]
    · rw [keyEvent_of_press k hx, resolveWait_reg_toNat]

/-- Settles O22: the rows of a reset, of a STEP and of KEY. -/
theorem interpreterChangesStateOnlyByTheTable : Obligations.InterpreterChangesStateOnlyByTheTable := by
  intro tr s s' r h hne
  obtain ⟨htr, rfl⟩ | ⟨bs, htr, rfl⟩ | ⟨htr, hstep, rfl⟩ | ⟨-, rfl⟩ | ⟨k, p, rfl, rfl⟩ | rfl := transact_cases h
  · exact .inl ⟨.inl htr, rfl⟩
  · exact .inl ⟨.inr ⟨bs, htr⟩, load_interpreter bs s⟩
  · exact .inr (.inl ⟨htr, step_interpreter hstep hne⟩)
  · exact absurd (interpreter_congr rfl rfl) hne
  · obtain ⟨x, rfl, hrow⟩ := keyEvent_interpreter hne
    exact .inr (.inr ⟨x, k, rfl, hrow⟩)
  · exact absurd rfl hne

end Sys2Proof.Machine
end

section
/-! Memory accesses (spec/20_memory.md R50 to R54; spec/60_exceptions.md R232): the address policies, what a read and
a write of several bytes answer, and that canonical memories that read alike are equal. -/

namespace Sys2Proof.Machine

/-! ### The address policies -/

theorem resolve_of_wrap {c : Config} {a : Nat} (ha : 0xFFF < a) (hc : c.addr = .wrap) :
    resolve c a = .ok (a % 4096) := by
  simp only [resolve, if_neg ha.not_ge, hc]

theorem resolve_of_clamp {c : Config} {a : Nat} (ha : 0xFFF < a) (hc : c.addr = .clamp) :
    resolve c a = .ok 0xFFF := by
  simp only [resolve, if_neg ha.not_ge, hc]

/-- Addresses less than 4096 apart resolve to different ones; under Clamp, where the higher is in memory. -/
theorem resolve_ne {c : Config} {a b r : Nat} (hlt : a < b) (hnear : b < a + 4096)
    (hclamp : c.addr = .clamp → b ≤ 0xFFF) (ha : resolve c a = .ok r) : resolve c b ≠ .ok r := by
  intro hb
  by_cases hin : b ≤ 0xFFF
  · rw [resolve_of_le (by omega)] at ha
    rw [resolve_of_le hin] at hb
    cases ha
    cases hb
    omega
  · have hhigh : 0xFFF < b := by omega
    cases hc : c.addr with
    | wrap =>
      have hmod : r = a % 4096 := by
        by_cases hlow : a ≤ 0xFFF
        · rw [resolve_of_le hlow] at ha
          cases ha
          omega
        · rw [resolve_of_wrap (by omega) hc] at ha
          cases ha
          rfl
      rw [resolve_of_wrap hhigh hc] at hb
      cases hb
      omega
    | clamp => exact hin (hclamp hc)
    | fault =>
      rw [resolve_of_fault hhigh hc] at hb
      cases hb

/-! ### Reads -/

section
variable {s : State} {a n k : Nat}

theorem memRead_of_resolve {r : Nat → Nat} (h : ∀ k < n, resolve s.cfg (a + k) = .ok (r k)) :
    memRead s a n = .ok ((List.range n).map fun k => s.byteAt (r k)) := by
  simp only [memRead, resolveAll_ok h, List.map_map, Function.comp_def]

theorem memRead_of_readable (h : ∀ k < n, Readable s.cfg (a + k)) : ∃ bs, memRead s a n = .ok bs := by
  choose! r hr using h
  exact ⟨_, memRead_of_resolve hr⟩

/-- Each byte read is the one its own address resolves to. -/
theorem memRead_getElem {bs : List Byte} {r : Nat} (h : memRead s a n = .ok bs) (hk : k < bs.length)
    (hr : resolve s.cfg (a + k) = .ok r) : bs[k] = s.byteAt r := by
  obtain ⟨rs, hrs, rfl⟩ := memRead_cases h
  rw [List.length_map] at hk
  rw [resolveAll_getElem hrs k hk] at hr
  cases hr
  exact List.getElem_map _

/-- R232: the first byte that fails gives a read's error. -/
theorem memRead_of_fault (hk : k < n) (hok : ∀ j < k, Readable s.cfg (a + j)) (hc : s.cfg.addr = .fault)
    (hhigh : 0xFFF < a + k) : memRead s a n = .error (.addressOutOfRange (a + k)) := by
  simp only [memRead, resolveAll_error hk hok (resolve_of_fault hhigh hc)]

end

/-! ### Writes -/

section
variable {s t : State} {a k : Nat} {bs : List Byte}

theorem memWrite_of_storable (h : ∀ k < bs.length, Storable s.cfg (a + k)) : ∃ t, memWrite s a bs = .ok t := by
  choose! r hr using fun k hk => storable_iff.mp (h k hk)
  unfold memWrite
  rw [resolveAll_ok hr]
  exact ⟨_, rfl⟩

/-- The addresses a write that succeeds stores to are those the claims name. -/
theorem memWrite_eq (h : memWrite s a bs = .ok t) :
    t = s.setMem (memPutAll s.fontBase s.mem (resolvedBytes s.cfg a bs.length) bs) ∧
    ∃ hlen : (resolvedBytes s.cfg a bs.length).length = bs.length, ∀ k (hk : k < bs.length),
      resolve s.cfg (a + k) = .ok (resolvedBytes s.cfg a bs.length)[k] := by
  obtain ⟨rs, hrs, rfl, -⟩ := memWrite_cases h
  have hlen := resolveAll_length hrs
  have hresolve : ∀ k (hk : k < rs.length), resolve s.cfg (a + k) = .ok rs[k] := fun k hk =>
    (resolveStore_ok.mp (resolveAll_getElem hrs k hk)).1
  have heq := resolvedBytes_eq hlen hresolve
  refine ⟨by rw [heq], by rw [heq, hlen], fun k hk => ?_⟩
  simp only [heq]
  exact hresolve k (hlen ▸ hk)

theorem memWrite_unchanged (h : memWrite s a bs = .ok t) :
    UnchangedBut ((resolvedBytes s.cfg a bs.length).map .byte) s t := by
  rw [(memWrite_eq h).1]
  exact memPutAll_unchanged fun r hr => List.mem_map_of_mem hr

/-- R103, R172: byte `k` is where `a + k` resolves to, unless a later byte of the write goes there too. -/
theorem memWrite_byteAt {r : Nat} (hwf : Memory.wf s.fontBase s.mem = true) (h : memWrite s a bs = .ok t)
    (hk : k < bs.length) (hr : resolve s.cfg (a + k) = .ok r)
    (hlast : ∀ j, k < j → j < bs.length → resolve s.cfg (a + j) ≠ .ok r) : t.byteAt r = bs[k] := by
  obtain ⟨rfl, hlen, hresolve⟩ := memWrite_eq h
  obtain rfl : (resolvedBytes s.cfg a bs.length)[k] = r := by simpa [hresolve k hk] using hr
  refine memGet_memPutAll_last hwf (fun r hr => ?_) hlen k (by omega) fun j hj hlt heq => ?_
  · obtain ⟨j, hj, rfl⟩ := List.getElem_of_mem hr
    exact resolve_lt (hresolve j (hlen ▸ hj))
  · exact hlast j hlt (hlen ▸ hj) (heq ▸ hresolve j (hlen ▸ hj))

/-- R232: the first byte that fails gives a write's error. -/
theorem memWrite_of_error {e : CpuError} (hk : k < bs.length) (hok : ∀ j < k, Storable s.cfg (a + j))
    (he : resolveStore s.cfg (a + k) = .error e) : memWrite s a bs = .error e := by
  simp only [memWrite, resolveAll_error hk (fun j hj => storable_iff.mp (hok j hj)) he]

theorem resolveStore_of_fault {c : Config} (hc : c.addr = .fault) (ha : 0xFFF < a) :
    resolveStore c a = .error (.addressOutOfRange a) := by
  simp only [resolveStore, resolve_of_fault ha hc]

theorem resolveStore_of_reserved {c : Config} {r : Nat} (hr : resolve c a = .ok r) (hlow : r < 0x200)
    (hc : c.reservedWrite = .fault) : resolveStore c a = .error (.reservedWrite r) := by
  simp only [resolveStore, hr, if_pos (And.intro hlow hc)]

end

/-! ### The claims on accesses -/

/-- Settles O23: the policies, the read in its two outcomes, and the last write to an address. -/
theorem resolveFollowsTheAddressPolicy : Obligations.ResolveFollowsTheAddressPolicy := by
  refine ⟨fun c a => ⟨resolve_of_le, resolve_of_wrap, resolve_of_clamp, resolve_of_fault⟩,
    fun s a n r h => memRead_of_resolve h, fun s a n k hk hok hc hhigh => memRead_of_fault hk hok hc hhigh,
    fun s t a bs hwf h k hk => ?_⟩
  obtain ⟨-, hlen, hresolve⟩ := memWrite_eq h
  exact ⟨_, hresolve k hk, memWrite_byteAt hwf h hk (hresolve k hk)⟩

/-- Settles O25: a write of storable addresses succeeds within its frame; else the first byte's error is the range
error, or the reserved error of a byte that is in range. -/
theorem writeChecksEveryAddressFirst : Obligations.WriteChecksEveryAddressFirst := by
  refine fun s a bs => ⟨fun h => ?_, fun k hk hok => ⟨fun hc hhigh => ?_, fun r hr hlow hc => ?_⟩⟩
  · obtain ⟨t, ht⟩ := memWrite_of_storable h
    exact ⟨t, ht, memWrite_unchanged ht⟩
  · exact memWrite_of_error hk hok (resolveStore_of_fault hc hhigh)
  · exact memWrite_of_error hk hok (resolveStore_of_reserved hr hlow hc)

/-- Settles O24: no two bytes of the write share an address, so each stands where the read finds it. -/
theorem readingBackAWriteGivesItsBytes : Obligations.ReadingBackAWriteGivesItsBytes := by
  intro s t a bs hwf hlen hclamp h
  obtain ⟨ht, hrlen, hresolve⟩ := memWrite_eq h
  have hcfg : t.cfg = s.cfg := by rw [ht, State.setMem_cfg]
  have hread : memRead t a bs.length =
      .ok ((List.range bs.length).map fun k => t.byteAt ((resolvedBytes s.cfg a bs.length).getD k 0)) :=
    memRead_of_resolve fun k hk => by simpa [hcfg, hrlen, hk] using hresolve k hk
  rw [hread]
  congr 1
  refine List.ext_getElem (by simp) fun k _ hk => ?_
  have hbyte := memWrite_byteAt hwf h hk (hresolve k hk) fun j hkj hj =>
    resolve_ne (by omega) (by omega) (fun hc => by have := hclamp hc; omega) (hresolve k hk)
  simpa [hrlen, hk] using hbyte

/-! ### The canonical form -/

/-- A canonical memory lists no byte that its address reads as unlisted. -/
theorem ne_unlistedByte_of_listed {base lo a : Nat} {m : Memory} {b : Byte} (hwf : memWfFrom base lo m = true)
    (h : listedByte m a = some b) : b ≠ unlistedByte base a := by
  induction m generalizing lo with
  | nil => cases h
  | cons c m ih =>
    obtain ⟨a', b'⟩ := c
    obtain ⟨-, -, hne, hm⟩ := memWfFrom_cons.mp hwf
    by_cases heq : a' = a
    · subst heq
      simp only [listedByte, if_true, Option.some.injEq] at h
      exact h ▸ hne
    · simp only [listedByte, if_neg heq] at h
      exact ih hm h

/-- So what it reads at an address says what it lists there. -/
theorem listedByte_eq_of_memGet_eq {base a : Nat} {m m' : Memory} (hm : Memory.wf base m = true)
    (hm' : Memory.wf base m' = true) (h : memGet base m a = memGet base m' a) :
    listedByte m a = listedByte m' a := by
  unfold memGet at h
  cases hl : listedByte m a with
  | none =>
    cases hl' : listedByte m' a with
    | none => rfl
    | some b' => exact absurd (by simpa [hl, hl'] using h.symm) (ne_unlistedByte_of_listed hm' hl')
  | some b =>
    cases hl' : listedByte m' a with
    | none => exact absurd (by simpa [hl, hl'] using h) (ne_unlistedByte_of_listed hm hl)
    | some b' => simpa [hl, hl'] using h

/-- Lists of rising addresses that list the same bytes are equal: their heads are the lowest listed address. -/
theorem eq_of_listedByte_eq {base lo : Nat} {m m' : Memory} (hm : memWfFrom base lo m = true)
    (hm' : memWfFrom base lo m' = true) (h : ∀ a, listedByte m a = listedByte m' a) : m = m' := by
  induction m generalizing lo m' with
  | nil =>
    cases m' with
    | nil => rfl
    | cons c' m' => simpa [listedByte] using h c'.1
  | cons c m ih =>
    cases m' with
    | nil => simpa [listedByte] using h c.1
    | cons c' m' =>
      obtain ⟨a, b⟩ := c
      obtain ⟨a', b'⟩ := c'
      obtain ⟨-, -, -, htail⟩ := memWfFrom_cons.mp hm
      obtain ⟨-, -, -, htail'⟩ := memWfFrom_cons.mp hm'
      have hadr : a = a' := by
        by_contra hne
        obtain hlt | hlt := Nat.lt_or_gt_of_ne hne
        · simpa [listedByte, Ne.symm hne, listedByte_of_lt htail' (by omega : a < a' + 1)] using h a
        · simpa [listedByte, hne, listedByte_of_lt htail (by omega : a' < a + 1)] using h a'
      subst hadr
      obtain rfl : b = b' := by simpa [listedByte] using h a
      congr 1
      refine ih htail htail' fun d => ?_
      by_cases hd : a = d
      · subst hd
        rw [listedByte_of_lt htail (Nat.lt_succ_self a), listedByte_of_lt htail' (Nat.lt_succ_self a)]
      · simpa [listedByte, hd] using h d

/-- Settles O26: memories that read alike list alike, and then they are the same list. -/
theorem canonicalMemoriesThatReadAlikeAreEqual : Obligations.CanonicalMemoriesThatReadAlikeAreEqual :=
  fun _ _ _ hm hm' h => eq_of_listedByte_eq hm hm' fun a => listedByte_eq_of_memGet_eq hm hm' (h a)

end Sys2Proof.Machine
end

section
/-! Instructions whose meaning is a few writes (spec/42_arithmetic.md, spec/43_control_flow.md, spec/44_memory_index.md
R171, spec/46_timers_random.md R213). The words are those `decode_encode` reads back. -/

namespace Sys2Proof.Machine

theorem decode_ofNat {n : Nat} {i : Instr} (h : BitVec.ofNat 16 n = encode i) :
    decode (BitVec.ofNat 16 n) = some i := by
  rw [h, decode_encode]

/-! ### 7XNN, FX1E and CXNN -/

theorem exec_addImm (x : Reg) (nn : Byte) (s : State) :
    exec (.addImm x nn) s = .next (s.setReg x (s.reg x + nn)).advance := rfl

/-- Settles O29: 7XNN is one register write. -/
theorem addImmediateWrapsAndSetsNoFlag : Obligations.AddImmediateWrapsAndSetsNoFlag := by
  intro x nn s
  refine ⟨decode_ofNat (by rw [Nat.mul_comm 0x100]; rfl), ?_⟩
  obtain ⟨t, ht, hx, hpc, hframe⟩ := exec_setReg_advance (exec_addImm x nn s)
  exact ⟨t, ht, by rw [hx, BitVec.toNat_add], hpc, hframe⟩

theorem exec_addIVx (x : Reg) (s : State) : exec (.addIVx x) s =
    .next (s.setI (BitVec.ofNat 16 (s.i.toNat + (s.reg x).toNat))).advance := rfl

/-- Settles O41: FX1E is one write of `I`. -/
theorem addIndexWrapsAndSetsNoFlag : Obligations.AddIndexWrapsAndSetsNoFlag := by
  intro x s
  refine ⟨decode_ofNat (ofNat_eq_formatX x (by omega)), ?_⟩
  obtain ⟨t, ht, hi, hpc, hframe⟩ := exec_setI_advance (exec_addIVx x s)
  exact ⟨t, ht, by rw [hi, BitVec.toNat_ofNat], hpc, hframe⟩

theorem countDraw_unchanged (s : State) : UnchangedBut [.draws] s s.countDraw := by
  intro p hp
  cases p with
  | draws => simp at hp
  | _ => rfl

theorem exec_rnd (x : Reg) (nn : Byte) (s : State) : exec (.rnd x nn) s =
    .next ((s.setReg x (Config.randByte s.draws &&& nn)).countDraw).advance := rfl

/-- Settles O51: CXNN writes the register, counts the draw and advances `PC`. -/
theorem randomByteIsMasked : Obligations.RandomByteIsMasked := by
  intro x nn s
  have hframe := ((setReg_unchanged s x (Config.randByte s.draws &&& nn)).trans (advance_unchanged _)).trans
    (countDraw_unchanged _)
  refine ⟨decode_ofNat (by rw [Nat.mul_comm 0x100]; rfl), _, exec_rnd x nn s, rfl, fun k => ?_, advance_pc_toNat _,
    hframe⟩
  rw [State.advance_reg, State.countDraw_reg, State.setReg_reg, if_pos rfl, BitVec.getLsbD_and]

/-! ### 8XY5 and 8XY7 -/

theorem noBorrowFlag_toNat (a b : Byte) : (noBorrowFlag a b).toNat = if b.toNat ≤ a.toNat then 1 else 0 := by
  simp only [noBorrowFlag, flagByte_toNat, decide_eq_true_eq]

/-- R136: the difference modulo 256, by whether there is a borrow. -/
theorem byte_sub_toNat (a b : Byte) :
    (a - b).toNat = if b.toNat ≤ a.toNat then a.toNat - b.toNat else a.toNat + 256 - b.toNat := by
  have ha : a.toNat < 256 := a.isLt
  have hb : b.toNat < 256 := b.isLt
  rw [BitVec.toNat_sub]
  split <;> omega

/-- R136, R137: the word and the result of each of the two subtractions. -/
theorem subtraction_cases {x y : Reg} {s : State} {i : Instr} {f minuend subtrahend : Nat}
    (h : (i, f, minuend, subtrahend) ∈ [(Instr.sub x y, 5, (s.reg x).toNat, (s.reg y).toNat),
      (Instr.subn x y, 7, (s.reg y).toNat, (s.reg x).toNat)]) :
    encode i = formatXYN 0x8 x y f ∧ ∃ a b : Byte, a.toNat = minuend ∧ b.toNat = subtrahend ∧
      exec i s = flaggedResult x (a - b) (noBorrowFlag a b) s := by
  simp only [List.mem_cons, List.not_mem_nil, or_false, Prod.mk.injEq] at h
  obtain ⟨rfl, rfl, rfl, rfl⟩ | ⟨rfl, rfl, rfl, rfl⟩ := h
  · exact ⟨rfl, s.reg x, s.reg y, rfl, rfl, rfl⟩
  · exact ⟨rfl, s.reg y, s.reg x, rfl, rfl, rfl⟩

/-- Settles O32: each subtraction is a result with a flag, and they differ in the order of the operands. -/
theorem subtractionsSetNoBorrow : Obligations.SubtractionsSetNoBorrow := by
  intro x y s i f minuend subtrahend h
  obtain ⟨hword, a, b, rfl, rfl, hexec⟩ := subtraction_cases h
  obtain ⟨t, ht, hx, hflag, hpc, hframe⟩ := exec_flaggedResult hexec
  refine ⟨decode_ofNat ((ofNat_eq_formatXYN x y rfl).trans hword.symm), t, ht, fun hne => ?_, ?_, hpc, hframe⟩
  · rw [hx hne, byte_sub_toNat]
  · rw [hflag, noBorrowFlag_toNat]

/-! ### BNNN and 2NNN -/

/-- R151: the sum fits 16 bits. -/
theorem indexedTarget_toNat (s : State) (nnn : Addr) :
    (indexedTarget s nnn).toNat = nnn.toNat + (s.reg 0).toNat := by
  have haddr : nnn.toNat < 4096 := nnn.isLt
  have hreg : (s.reg 0).toNat < 256 := (s.reg 0).isLt
  rw [indexedTarget, BitVec.toNat_ofNat, Nat.mod_eq_of_lt (by omega)]

/-- Settles O35: BNNN is one write of `PC`. -/
theorem indexedJumpAddsV0 : Obligations.IndexedJumpAddsV0 :=
  fun nnn s => ⟨decode_encode (.jpV0 nnn), s.setPc (indexedTarget s nnn), rfl, indexedTarget_toNat s nnn,
    setPc_unchanged s _⟩

theorem exec_call (nnn : Addr) (s : State) : exec (.call nnn) s =
    finish s ((push s (s.pc + 2)).map fun t => t.setPc (zext16 nnn)) := rfl

theorem push_of_lt {s : State} (v : Word) (h : s.stack.length < 16) :
    push s v = .ok (s.setStack (s.stack ++ [v])) :=
  if_neg h.ne

theorem push_of_full {s : State} (v : Word) (h : s.stack.length = 16) : push s v = .error (.stackOverflow s.pc) :=
  if_pos h

/-- Settles O36: the call is what `Push` answers, and then the jump, or its error latched. -/
theorem callPushesTheReturnAddress : Obligations.CallPushesTheReturnAddress := by
  refine fun nnn s => ⟨decode_encode (.call nnn), fun hdepth => ?_, fun hfull => latches_of_exec ?_⟩
  · refine ⟨(s.setStack (s.stack ++ [s.pc + 2])).setPc (zext16 nnn), s.pc + 2, ?_, rfl, advance_pc_toNat s,
      zext16_toNat nnn, (setStack_unchanged s _).trans (setPc_unchanged _ _)⟩
    rw [exec_call, push_of_lt _ hdepth, finish_map_ok]
  · rw [exec_call, push_of_full _ hfull, finish_map_error]

/-! ### 3XNN, 4XNN, 5XY0 and 9XY0 -/

theorem exec_seImm (x : Reg) (nn : Byte) (s : State) :
    exec (.seImm x nn) s = .next (s.skipIf (s.reg x == nn)) := rfl

theorem exec_sneImm (x : Reg) (nn : Byte) (s : State) :
    exec (.sneImm x nn) s = .next (s.skipIf (s.reg x != nn)) := rfl

theorem exec_seReg (x y : Reg) (s : State) :
    exec (.seReg x y) s = .next (s.skipIf (s.reg x == s.reg y)) := rfl

theorem exec_sneReg (x y : Reg) (s : State) :
    exec (.sneReg x y) s = .next (s.skipIf (s.reg x != s.reg y)) := rfl

/-- R154, R156: a skip on equal bytes. -/
theorem exec_skipIfEq {i : Instr} {s : State} {a b : Byte} (h : exec i s = .next (s.skipIf (a == b))) :
    ∃ t, exec i s = .next t ∧ UnchangedBut [.pc] s t ∧
      t.pc.toNat = (s.pc.toNat + if a.toNat = b.toNat then 4 else 2) % 0x10000 := by
  refine ⟨_, h, skipIf_unchanged s _, ?_⟩
  rw [skipIf_pc_toNat]
  simp only [beq_iff_eq, BitVec.toNat_inj]

/-- R155, R157: a skip on different bytes. -/
theorem exec_skipIfNe {i : Instr} {s : State} {a b : Byte} (h : exec i s = .next (s.skipIf (a != b))) :
    ∃ t, exec i s = .next t ∧ UnchangedBut [.pc] s t ∧
      t.pc.toNat = (s.pc.toNat + if a.toNat = b.toNat then 2 else 4) % 0x10000 := by
  refine ⟨_, h, skipIf_unchanged s _, ?_⟩
  rw [skipIf_pc_toNat]
  simp only [bne_iff_ne, ne_eq, ite_not, BitVec.toNat_inj]

/-- Settles O38: a skip on equal bytes and one on different bytes. -/
theorem immediateSkipsCompare : Obligations.ImmediateSkipsCompare := by
  refine fun x nn s => ⟨?_, ?_, exec_skipIfEq (exec_seImm x nn s), exec_skipIfNe (exec_sneImm x nn s)⟩
  · exact decode_ofNat (by rw [Nat.mul_comm 0x100]; rfl)
  · exact decode_ofNat (by rw [Nat.mul_comm 0x100]; rfl)

/-- Settles O39: the same two skips, between registers. -/
theorem registerSkipsCompare : Obligations.RegisterSkipsCompare := by
  refine fun x y s => ⟨?_, ?_, exec_skipIfEq (exec_seReg x y s), exec_skipIfNe (exec_sneReg x y s)⟩
  · exact decode_ofNat (by rw [Nat.mul_comm 0x100, Nat.mul_comm 0x10]; rfl)
  · exact decode_ofNat (by rw [Nat.mul_comm 0x100, Nat.mul_comm 0x10]; rfl)

end Sys2Proof.Machine
end

section
/-! The issue of FX0A (spec/47_input.md R223), and the transactions that reset or only read (spec/45_display.md R195;
spec/60_exceptions.md R242; spec/70_reset_and_hazards.md R260 to R264). -/

namespace Sys2Proof.Machine

/-! ### FX0A -/

theorem exec_ldVxK_of_atIssue {s : State} (x : Reg) (hc : s.cfg.keywaitPc = .atIssue) :
    exec (.ldVxK x) s = .next (s.setWait (some x)).advance := by
  simp only [exec, execLdVxK, hc]

/-- R223: the marker is set, and `PC` moves by `P_KEYWAIT_PC`. -/
theorem exec_ldVxK (x : Reg) (s : State) : ∃ t, exec (.ldVxK x) s = .next t ∧ t.wait = some x ∧
    UnchangedBut [.wait, .pc] s t ∧
    t.pc.toNat = if s.cfg.keywaitPc = .atIssue then (s.pc.toNat + 2) % 0x10000 else s.pc.toNat := by
  have hwait := setWait_unchanged s (some x)
  cases hc : s.cfg.keywaitPc with
  | atIssue =>
    exact ⟨_, exec_ldVxK_of_atIssue x hc, rfl, hwait.trans (advance_unchanged _),
      (advance_pc_toNat (s.setWait (some x))).trans (if_pos rfl).symm⟩
  | atResolve =>
    exact ⟨_, exec_ldVxK_of_atResolve x hc, rfl, hwait.mono fun _ hp => List.mem_append_left [Part.pc] hp,
      (if_neg nofun).symm⟩

/-- R107: a pending wait outlasts every transaction but a reset and a press. -/
theorem wait_ends_by {tr : Transaction} {t u : State} {r : Response} {x : Reg} (ht : t.wait = some x)
    (h : transact tr t = .next (u, r)) (hne : u.wait ≠ some x) :
    tr = .construct ∨ (∃ bs, tr = .load bs) ∨ ∃ k, tr = .key k true := by
  obtain ⟨htr, -⟩ | ⟨bs, htr, -⟩ | ⟨-, hstep, -⟩ | ⟨-, rfl⟩ | ⟨k, p, htr, rfl⟩ | rfl := transact_cases h
  · exact .inl htr
  · exact .inr (.inl ⟨bs, htr⟩)
  · obtain rfl | ⟨hrun, -⟩ := step_effect hstep
    · exact absurd ht hne
    · obtain ⟨-, hnone⟩ := interpreter_eq_running.mp hrun
      rw [hnone] at ht
      cases ht
  · exact absurd ht hne
  · cases p with
    | true => exact .inr (.inr ⟨k, htr⟩)
    | false =>
      rw [keyEvent_of_release_or_no_wait k (.inl rfl)] at hne
      exact absurd ht hne
  · exact absurd ht hne

/-- Settles O53: the issue of FX0A, and what ends the wait it began. -/
theorem keyWaitBegins : Obligations.KeyWaitBegins := by
  intro x s
  obtain ⟨t, hexec, hwait, hframe, hpc⟩ := exec_ldVxK x s
  exact ⟨decode_ofNat (ofNat_eq_formatX x (by omega)), t, hexec, hwait, hframe, hpc,
    fun _ _ _ h hne => wait_ends_by hwait h hne⟩

/-! ### Resets -/

/-- Settles O57: LOAD reads nothing of the state but the parameters, and keeps the count of draws. -/
theorem reloadingGivesTheSameState : Obligations.ReloadingGivesTheSameState := by
  intro bs s s' hcfg
  unfold load State.fontBase construct
  rw [hcfg]
  split <;> exact ⟨rfl, rfl⟩

/-- R35: in the reset state every address reads as unlisted. -/
theorem resetFor_byteAt (c : Config) (draws a : Nat) :
    (State.resetFor c draws).byteAt a = unlistedByte c.fontBase.toNat a := rfl

theorem unlistedByte_of_outside {base a : Nat} (h : a < base ∨ base + 80 ≤ a) : unlistedByte base a = 0x00 := by
  unfold unlistedByte
  split
  · exact List.getD_eq_default fontTable 0x00 (by change 80 ≤ a - base; omega)
  · rfl

/-- Settles O58: both states are reset states, whose fields are read off and whose font is the table's. -/
theorem resetGivesEveryFieldItsValue : Obligations.ResetGivesEveryFieldItsValue := by
  intro s t h
  obtain ⟨c, draws, rfl⟩ : ∃ c draws, t = State.resetFor c draws := by
    obtain h | rfl := h
    · cases h
      exact ⟨s.cfg, s.draws, rfl⟩
    · exact ⟨Config.defaults, 0, rfl⟩
  refine ⟨fun x => ?_, rfl, rfl, rfl, pixelAt_darkRaster, rfl, rfl, fun k => ?_, rfl, rfl, fun a ha => ?_, ?_⟩
  · exact Vector.getElem_replicate x.isLt
  · exact Vector.getElem_replicate k.isLt
  · rw [resetFor_byteAt]
    exact unlistedByte_of_outside ha
  · intro d glyph hglyph k hk
    rw [resetFor_byteAt, Nat.add_assoc]
    refine (unlistedByte_font c.fontBase.toNat (5 * d + k)).trans ?_
    obtain ⟨p, rfl, rfl⟩ : ∃ p : Nat × List Byte, p.1 = d ∧ p.2 = glyph := ⟨(d, glyph), rfl, rfl⟩
    change p ∈ _ at hglyph
    revert p k
    decide

/-! ### SNAPSHOT and SOUND -/

/-- Settles O59: both are functions of the state, and SOUND is a test of the sound timer. -/
theorem snapshotAndSoundOnlyRead : Obligations.SnapshotAndSoundOnlyRead :=
  fun s => ⟨rfl, soundActive s, rfl, soundActive_iff s⟩

end Sys2Proof.Machine
end

section
/-! The instructions that store to and load from memory at `I` (spec/44_memory_index.md R172 to R174): each is what a
memory access answers, and then `I` by `P_LDST_I` and the advance of `PC`, or the access's error latched. -/

namespace Sys2Proof.Machine

/-! ### An instruction that begins with what may fail -/

/-- An instruction that fails in its first part latches that part's error. -/
theorem latches_of_error {α : Type} {i : Instr} {s : State} {r : Except CpuError α} {f : α → State} {e : CpuError}
    (h : exec i s = finish s (r.map f)) (he : r = .error e) : Latches i s e :=
  latches_of_exec (by rw [h, he, finish_map_error])

/-- An instruction whose first part succeeds ends in what the rest makes of it. -/
theorem exec_of_ok {α : Type} {i : Instr} {s : State} {r : Except CpuError α} {f : α → State} {a : α}
    (h : exec i s = finish s (r.map f)) (ha : r = .ok a) : exec i s = .next (f a) := by
  rw [h, ha, finish_map_ok]

/-- R54, R232: an instruction that stores latches the error of its first byte that fails. -/
theorem latches_store {i : Instr} {s : State} {a k : Nat} {bs : List Byte} {f : State → State}
    (h : exec i s = finish s ((memWrite s a bs).map f)) (hk : k < bs.length)
    (hok : ∀ j < k, Storable s.cfg (a + j)) :
    (s.cfg.addr = .fault → 0xFFF < a + k → Latches i s (.addressOutOfRange (a + k))) ∧
      (∀ r, resolve s.cfg (a + k) = .ok r → r < 0x200 → s.cfg.reservedWrite = .fault →
        Latches i s (.reservedWrite r)) :=
  ⟨fun hc hhigh => latches_of_error h (memWrite_of_error hk hok (resolveStore_of_fault hc hhigh)),
    fun _ hr hlow hc => latches_of_error h (memWrite_of_error hk hok (resolveStore_of_reserved hr hlow hc))⟩

/-- R53, R232: an instruction that reads memory latches the error of its first byte that fails. -/
theorem latches_load {i : Instr} {s : State} {a n k : Nat} {f : List Byte → State}
    (h : exec i s = finish s ((memRead s a n).map f)) (hk : k < n) (hok : ∀ j < k, Readable s.cfg (a + j))
    (hc : s.cfg.addr = .fault) (hhigh : 0xFFF < a + k) : Latches i s (.addressOutOfRange (a + k)) :=
  latches_of_error h (memRead_of_fault hk hok hc hhigh)

/-! ### `I` after a block -/

/-- R172: the increase is modulo 2^16. -/
theorem stepIndex_i_toNat (s : State) (x : Reg) : (s.stepIndex x).i.toNat =
    if s.cfg.ldstI = .increment then (s.i.toNat + x.val + 1) % 0x10000 else s.i.toNat := by
  rw [State.stepIndex_i]
  split
  · exact BitVec.toNat_ofNat _ 16
  · rfl

theorem stepIndex_unchanged (s : State) (x : Reg) : UnchangedBut [.index] s (s.stepIndex x) := by
  cases hc : s.cfg.ldstI with
  | increment =>
    rw [State.stepIndex_of_increment s x hc]
    exact setI_unchanged s _
  | unchanged =>
    rw [State.stepIndex_of_unchanged s x hc]
    exact fun p _ => by cases p <;> rfl

theorem stepIndex_advance_unchanged (s : State) (x : Reg) :
    UnchangedBut [.index, .pc] s (s.stepIndex x).advance :=
  (stepIndex_unchanged s x).trans (advance_unchanged _)

/-- The claims list what the last part of an instruction writes first. -/
theorem UnchangedBut.trans_comm {l l' : List Part} {s t u : State} (h : UnchangedBut l s t)
    (h' : UnchangedBut l' t u) : UnchangedBut (l' ++ l) s u :=
  (h.trans h').mono fun _ hp => List.perm_append_comm.mem_iff.mp hp

/-! ### FX55 -/

theorem exec_ldMemVx (x : Reg) (s : State) : exec (.ldMemVx x) s =
    finish s ((memWrite s s.i.toNat (regBlock s x)).map fun t => (t.stepIndex x).advance) := rfl

/-- A write leaves every field but memory. -/
theorem memWrite_fields {s t : State} {a : Nat} {bs : List Byte} (h : memWrite s a bs = .ok t) :
    t.i = s.i ∧ t.pc = s.pc ∧ t.cfg = s.cfg := by
  obtain ⟨rfl, -⟩ := memWrite_eq h
  exact ⟨rfl, rfl, rfl⟩

/-- R172: the bytes written are the registers up to `X`. -/
theorem memWrite_regBlock_byteAt {s t : State} {a r : Nat} {x k : Reg} (hwf : Memory.wf s.fontBase s.mem = true)
    (h : memWrite s a (regBlock s x) = .ok t) (hk : k ≤ x) (hr : resolve s.cfg (a + k.val) = .ok r)
    (hlast : ∀ j : Reg, k < j → j ≤ x → resolve s.cfg (a + j.val) ≠ .ok r) : t.byteAt r = s.reg k := by
  have hlen := regBlock_length s x
  have hkx : k.val ≤ x.val := hk
  have hin : k.val < (regBlock s x).length := by omega
  rw [memWrite_byteAt hwf h hin hr fun j hkj hj => ?_, regBlock_getElem]
  exact hlast ⟨j, by omega⟩ hkj (Fin.mk_le_of_le_val (by omega))

/-- Settles O42: the write of the registers, then `I` and `PC`. -/
theorem storeBlockWritesTheRegisters : Obligations.StoreBlockWritesTheRegisters := by
  intro x s hwf
  have hlen := regBlock_length s x
  refine ⟨decode_ofNat (ofNat_eq_formatX x (by omega)), fun hall => ?_, fun k hk hok =>
    latches_store (exec_ldMemVx x s) (by omega) hok⟩
  obtain ⟨t, ht⟩ := memWrite_of_storable (bs := regBlock s x) fun k hk => hall k (by omega)
  obtain ⟨hi, hpc, hcfg⟩ := memWrite_fields ht
  refine ⟨_, exec_of_ok (exec_ldMemVx x s) ht, fun k r hk hr hlast => ?_, ?_, ?_, ?_⟩
  · rw [State.advance_byteAt, State.stepIndex_byteAt]
    exact memWrite_regBlock_byteAt hwf ht hk hr hlast
  · rw [State.advance_i, stepIndex_i_toNat, hi, hcfg]
  · rw [advance_pc_toNat, State.stepIndex_pc, hpc]
  · rw [← hlen]
    exact (memWrite_unchanged ht).trans_comm (stepIndex_advance_unchanged t x)

/-! ### FX33 -/

theorem exec_ldBVx (x : Reg) (s : State) : exec (.ldBVx x) s =
    finish s ((memWrite s s.i.toNat (bcdDigits (s.reg x))).map fun t => t.advance) := rfl

/-- R174: hundreds, tens and ones. -/
theorem bcdDigits_getElem_toNat (v : Byte) (k : Nat) (hk : k < (bcdDigits v).length) :
    (bcdDigits v)[k].toNat = v.toNat / 10 ^ (2 - k) % 10 := by
  have hv : v.toNat < 256 := v.isLt
  match k, hk with
  | 0, _ => exact (BitVec.toNat_ofNat _ 8).trans (by omega)
  | 1, _ => exact (BitVec.toNat_ofNat _ 8).trans (by omega)
  | 2, _ => exact (BitVec.toNat_ofNat _ 8).trans (by omega)

/-- Settles O44: the write of the digits, then `PC`. -/
theorem storeDigitsWritesTheDecimalDigits : Obligations.StoreDigitsWritesTheDecimalDigits := by
  intro x s hwf
  refine ⟨decode_ofNat (ofNat_eq_formatX x (by omega)), fun hall => ?_, fun k hk hok =>
    latches_store (exec_ldBVx x s) hk hok⟩
  obtain ⟨t, ht⟩ := memWrite_of_storable (bs := bcdDigits (s.reg x)) hall
  obtain ⟨-, hpc, -⟩ := memWrite_fields ht
  refine ⟨_, exec_of_ok (exec_ldBVx x s) ht, fun k r hk hr hlast => ?_, ?_, ?_⟩
  · rw [State.advance_byteAt, memWrite_byteAt hwf ht hk hr hlast]
    exact bcdDigits_getElem_toNat (s.reg x) k hk
  · rw [advance_pc_toNat, hpc]
  · exact (memWrite_unchanged ht).trans_comm (advance_unchanged t)

/-! ### FX65 -/

theorem exec_ldVxMem (x : Reg) (s : State) : exec (.ldVxMem x) s =
    finish s ((memRead s s.i.toNat (x.val + 1)).map fun bs => ((s.setBlock bs).stepIndex x).advance) := rfl

/-- R173: registers above the block keep their value. -/
theorem setBlock_unchanged {s : State} {bs : List Byte} {x : Reg} (hlen : bs.length = x.val + 1) :
    UnchangedBut (((List.finRange 16).filter (· ≤ x)).map .reg) s (s.setBlock bs) := by
  intro p hp
  cases p with
  | reg y =>
    have hy : ¬ y ≤ x := fun hle =>
      hp (List.mem_map_of_mem (List.mem_filter.mpr ⟨List.mem_finRange y, decide_eq_true hle⟩))
    have hout : bs.length ≤ y.val := by
      rw [hlen]
      exact Nat.lt_of_not_le hy
    exact (s.setBlock_reg bs y).trans (List.getD_eq_default bs _ hout)
  | _ => simp [Part.Same]

/-- Settles O43: the read, then the registers of the block, `I` and `PC`. -/
theorem loadBlockReadsTheRegisters : Obligations.LoadBlockReadsTheRegisters := by
  intro x s
  refine ⟨decode_ofNat (ofNat_eq_formatX x (by omega)), fun hall => ?_, fun k hk hok hc hhigh =>
    latches_load (exec_ldVxMem x s) (by omega) hok hc hhigh⟩
  obtain ⟨bs, hbs⟩ := memRead_of_readable (n := x.val + 1) fun k hk => hall k (by omega)
  have hlen := memRead_length hbs
  refine ⟨_, exec_of_ok (exec_ldVxMem x s) hbs, fun k r hk hr => ?_, ?_, ?_, ?_⟩
  · have hkx : k.val ≤ x.val := hk
    have hin : k.val < bs.length := by omega
    rw [State.advance_reg, State.stepIndex_reg, State.setBlock_reg, List.getD_eq_getElem _ _ hin]
    exact memRead_getElem hbs hin hr
  · rw [State.advance_i, stepIndex_i_toNat, State.setBlock_i, State.setBlock_cfg]
  · rw [advance_pc_toNat, State.stepIndex_pc, State.setBlock_pc]
  · exact (setBlock_unchanged hlen).trans_comm (stepIndex_advance_unchanged _ x)

end Sys2Proof.Machine
end

section
/-! Drawing a sprite (spec/45_display.md R191 to R193): what DXYN does to the display and VF, in terms of the pixels the
sprite covers, and the same sprite drawn twice. -/

namespace Sys2Proof.Machine

/-! ### The pixels a sprite covers -/

/-- The rows read from memory cover the pixels that the claims' sprite does. -/
theorem rowsCover_iff_spriteCovers {s : State} {x y : Reg} {n : Nat} {rows : List Byte} {px : Fin 64} {py : Fin 32}
    (h : memRead s s.i.toNat n = .ok rows) :
    RowsCover s.cfg (s.reg x) (s.reg y) 0 rows px py ↔ SpriteCovers s x y n px py := by
  have hlen := memRead_length h
  constructor
  · rintro ⟨i, hi, j, hj, hbit, hlands⟩
    obtain ⟨rs, hrs, rfl⟩ := memRead_cases h
    have hirs : i < rs.length := by rwa [List.length_map] at hi
    rw [List.getElem_map] at hbit
    rw [Nat.zero_add] at hlands
    exact ⟨i, j, rs[i], by omega, List.mem_range.mp hj, resolveAll_getElem hrs i hirs, hbit, hlands⟩
  · rintro ⟨i, j, r, hi, hj, hr, hbit, hlands⟩
    have hirows : i < rows.length := by omega
    refine ⟨i, hirows, j, List.mem_range.mpr hj, ?_, by rwa [Nat.zero_add]⟩
    rwa [memRead_getElem h hirows hr]

/-- A sprite depends on the parameters, `I`, memory and the two registers of its origin. -/
theorem spriteCovers_congr {s t : State} {x y : Reg} {n : Nat} (hcfg : t.cfg = s.cfg) (hi : t.i = s.i)
    (hmem : ∀ a, t.byteAt a = s.byteAt a) (hx : t.reg x = s.reg x) (hy : t.reg y = s.reg y) :
    SpriteCovers t x y n = SpriteCovers s x y n := by
  funext px py
  simp only [SpriteCovers, hcfg, hi, hmem, hx, hy]

/-! ### What a draw does -/

/-- The display and VF of `t` are those of `s` after the sprite of `n` rows is drawn (R192). -/
structure SpriteDrawn (x y : Reg) (n : Nat) (s t : State) : Prop where
  flipped : ∀ px py, SpriteCovers s x y n px py → pixelAt t.fb px py = !pixelAt s.fb px py
  kept : ∀ px py, ¬ SpriteCovers s x y n px py → pixelAt t.fb px py = pixelAt s.fb px py
  collision : t.reg 15 = 0x01#8 ↔ ∃ px py, SpriteCovers s x y n px py ∧ pixelAt s.fb px py = true
  noCollision : t.reg 15 = 0x00#8 ↔ ¬ ∃ px py, SpriteCovers s x y n px py ∧ pixelAt s.fb px py = true

theorem collisionFlag_eq_one (hit : Bool) : collisionFlag hit = 0x01#8 ↔ hit = true := by
  cases hit <;> decide

theorem collisionFlag_eq_zero (hit : Bool) : collisionFlag hit = 0x00#8 ↔ ¬ hit = true := by
  cases hit <;> decide

theorem drawSprite_fb (s : State) (x y : Reg) (rows : List Byte) :
    (drawSprite s x y rows).fb = (drawRows s.cfg (s.reg x) (s.reg y) 0 rows (s.fb, false)).1 := rfl

theorem drawSprite_flag (s : State) (x y : Reg) (rows : List Byte) : (drawSprite s x y rows).reg 15 =
    collisionFlag (drawRows s.cfg (s.reg x) (s.reg y) 0 rows (s.fb, false)).2 :=
  (State.setFlag_reg _ 15 _).trans (if_pos rfl)

/-- R192: drawing row by row and column by column is drawing the covered pixels at once. -/
theorem drawSprite_drawn {s : State} {x y : Reg} {n : Count} {rows : List Byte}
    (h : memRead s s.i.toNat n.val = .ok rows) : SpriteDrawn x y n.val s (drawSprite s x y rows) := by
  have hlen := memRead_length h
  obtain ⟨hflipped, hkept, hhit⟩ := drawRows_spec s.cfg (s.reg x) (s.reg y) 0 rows (s.fb, false) (by omega)
  simp only [rowsCover_iff_spriteCovers h, Bool.false_eq_true, false_or] at hflipped hkept hhit
  refine ⟨hflipped, hkept, ?_, ?_⟩
  · rw [drawSprite_flag, collisionFlag_eq_one, hhit]
  · rw [drawSprite_flag, collisionFlag_eq_zero, hhit]

theorem drawSprite_pc_toNat (s : State) (x y : Reg) (rows : List Byte) :
    (drawSprite s x y rows).pc.toNat = (s.pc.toNat + 2) % 0x10000 :=
  advance_pc_toNat _

/-- The flag write and the advance of `PC` commute. -/
theorem setFlag_advance_unchanged (s : State) (b : Byte) : UnchangedBut [.pc, .reg 15] s (s.setFlag b).advance :=
  (advance_unchanged s).trans (setFlag_unchanged s.advance b)

theorem drawSprite_unchanged (s : State) (x y : Reg) (rows : List Byte) :
    UnchangedBut ([.pc, .reg 15] ++ everyPixel) s (drawSprite s x y rows) :=
  (setFb_unchanged s _).trans_comm (setFlag_advance_unchanged _ _)

/-! ### DXYN -/

theorem exec_drw (x y : Reg) (n : Count) (s : State) : exec (.drw x y n) s =
    finish s ((memRead s s.i.toNat n.val).map (drawSprite s x y)) := rfl

theorem drw_word (x y : Reg) (n : Count) :
    BitVec.ofNat 16 (0xD000 + 0x100 * x.val + 0x10 * y.val + n.val) = encode (.drw x y n) := by
  rw [Nat.mul_comm 0x100, Nat.mul_comm 0x10]
  rfl

/-- Where its rows can be read, DXYN draws them. -/
theorem exec_drw_of_readable {x y : Reg} {n : Count} {s : State}
    (h : ∀ k < n.val, Readable s.cfg (s.i.toNat + k)) :
    ∃ rows, exec (.drw x y n) s = .next (drawSprite s x y rows) ∧
      SpriteDrawn x y n.val s (drawSprite s x y rows) := by
  obtain ⟨rows, hrows⟩ := memRead_of_readable h
  exact ⟨rows, exec_of_ok (exec_drw x y n s) hrows, drawSprite_drawn hrows⟩

/-- Settles O47: a draw is the flip of the covered pixels; a byte that cannot be read is the error. -/
theorem drawFlipsTheCoveredPixels : Obligations.DrawFlipsTheCoveredPixels := by
  intro x y n s
  refine ⟨decode_ofNat (drw_word x y n), fun hall => ?_, fun k hk hok hc hhigh =>
    latches_load (exec_drw x y n s) hk hok hc hhigh⟩
  obtain ⟨rows, hexec, hdrawn⟩ := exec_drw_of_readable (x := x) (y := y) hall
  exact ⟨_, hexec, hdrawn.flipped, hdrawn.kept, hdrawn.collision.mpr, hdrawn.noCollision.mpr,
    drawSprite_pc_toNat s x y rows, drawSprite_unchanged s x y rows⟩

/-! ### The same sprite twice -/

section
variable {x y : Reg} {n : Nat} {s t t' u : State} (hfirst : SpriteDrawn x y n s t)
  (hsecond : SpriteDrawn x y n t' u) (hfb : t'.fb = t.fb) (hsame : SpriteCovers t' x y n = SpriteCovers s x y n)
include hfirst hsecond hfb hsame

/-- A covered pixel is flipped twice, and every other pixel is kept twice. -/
theorem SpriteDrawn.twice_fb : u.fb = s.fb := by
  refine raster_ext fun px py => ?_
  by_cases hcov : SpriteCovers s x y n px py
  · rw [hsecond.flipped px py (hsame ▸ hcov), hfb, hfirst.flipped px py hcov, Bool.not_not]
  · rw [hsecond.kept px py (hsame ▸ hcov), hfb, hfirst.kept px py hcov]

/-- The covered pixels lit before the second draw are those dark before the first. -/
theorem SpriteDrawn.twice_collision :
    u.reg 15 = 0x01#8 ↔ ∃ px py, SpriteCovers s x y n px py ∧ pixelAt s.fb px py = false := by
  rw [hsecond.collision, hsame, hfb]
  refine exists_congr fun px => exists_congr fun py => and_congr_right fun hcov => ?_
  rw [hfirst.flipped px py hcov, Bool.not_eq_true']

end

/-- Settles O48: both draws are of one sprite; after a first draw without collision every covered pixel was dark. -/
theorem drawingTwiceRestoresTheDisplay : Obligations.DrawingTwiceRestoresTheDisplay := by
  intro x y n s t t' u hall ht hfb hcfg hi hmem hx hy hu
  obtain ⟨rows, hexec, hfirst⟩ := exec_drw_of_readable (x := x) (y := y) hall
  obtain ⟨rows', hexec', hsecond⟩ := exec_drw_of_readable (x := x) (y := y) (s := t') (by rwa [hcfg, hi])
  obtain rfl := Host.Outcome.next.inj (hexec.symm.trans ht)
  obtain rfl := Host.Outcome.next.inj (hexec'.symm.trans hu)
  have hsame : SpriteCovers t' x y n.val = SpriteCovers s x y n.val := spriteCovers_congr hcfg hi hmem hx hy
  have hcollision := hfirst.twice_collision hsecond hfb hsame
  refine ⟨hfirst.twice_fb hsecond hfb hsame, hcollision, fun hno => ?_⟩
  have hdark := hfirst.noCollision.mp hno
  rw [hcollision]
  refine exists_congr fun px => exists_congr fun py => and_iff_left_of_imp fun hcov => ?_
  exact Bool.eq_false_iff.mpr fun hlit => hdark ⟨px, py, hcov, hlit⟩

end Sys2Proof.Machine
end
